-- ==== Sys2Proof/Word.lean ====
section
/-! DEFINITION. The word types of 00_scope.md rules R10 and R12. -/

namespace Sys2Proof

/-- `Word32`: registers, the program counter, addresses while they are computed, instruction words (R10, R12). -/
abbrev Word := BitVec 32

/-- `Byte`: one memory byte (R10). -/
abbrev Byte := BitVec 8

/-- A register index: "a 5-bit value 0..31" (R12). -/
abbrev Reg := BitVec 5

end Sys2Proof
end

