-- ==== Sys2Proof/Config.lean ====
section
/-! DEFINITION. What an implementation fixes (00_scope.md rule R7) and the values the spec leaves OPEN. -/

namespace Sys2Proof

/-- The two values of the parameter `EXT_BRANCH` (R7, R8; 92_eei_decisions.md D6). -/
inductive ExtBranch where
  /-- `blt`, `bge`, `bltu` and `bgeu` raise UnsupportedInstruction. -/
  | reject
  /-- The four words compare as RV32I does. -/
  | rv32i
  deriving DecidableEq, Repr

/-- MEM_SIZE (R7): the number of bytes of the memory array. -/
def Config.memSize : Nat := 65536

/-- RESET_PC (R7): the entry point. -/
def Config.resetPc : Word := 0

/-- IMAGE_BASE (R7): the offset at which `load` places the image. -/
def Config.imageBase : Nat := 0

/-- IMAGE_MAX (R7): the longest image `load` accepts, in bytes. -/
def Config.imageMax : Nat := Config.memSize

/-- The default of `EXT_BRANCH` (R7, R8). The machine's own value stands in `State.extBranch` (log entry 3). -/
def Config.extBranchDefault : ExtBranch := .reject

/-- JAL_OFFSET (R9, R86, R94): the OPEN function from a 0x6F word to the jump's displacement. No body: a statement
that holds of the model holds of every such function (log entry 4). -/
opaque Config.jalOffset : Word → Word

/-- The text of an `InputPrompt` record, which the spec leaves unspecified (43_system_io.md rule R254): a free value
of the record's place in the output stream and its register (log entry 6). -/
opaque Config.promptText : Nat → Reg → String

end Sys2Proof
end

