-- ==== Sys2Proof/Syntax.lean ====
section
/-! DEFINITION. The instructions: one constructor per row of opcode_table.json. -/

namespace Sys2Proof

/-- The 27 instructions. A field holds exactly the operand bits of the encoding, so that a word and its instruction
determine each other; sign extension is done where an operand is used (Machine/Operands.lean). -/
inductive Instr where
  -- R format, opcode 0x33 (30_encoding.md rules R82, R98)
  | add (rd rs1 rs2 : Reg)
  | sub (rd rs1 rs2 : Reg)
  | sll (rd rs1 rs2 : Reg)
  | xor (rd rs1 rs2 : Reg)
  | srl (rd rs1 rs2 : Reg)
  | sra (rd rs1 rs2 : Reg)
  | or (rd rs1 rs2 : Reg)
  | and (rd rs1 rs2 : Reg)
  -- I format, opcode 0x13 (R83, R99): `imm` is bits 31:20
  | addi (rd rs1 : Reg) (imm : BitVec 12)
  | xori (rd rs1 : Reg) (imm : BitVec 12)
  | ori (rd rs1 : Reg) (imm : BitVec 12)
  | andi (rd rs1 : Reg) (imm : BitVec 12)
  -- I format, shifts (R100): `shamt` is bits 24:20
  | slli (rd rs1 : Reg) (shamt : BitVec 5)
  | srli (rd rs1 : Reg) (shamt : BitVec 5)
  | srai (rd rs1 : Reg) (shamt : BitVec 5)
  -- load (R83, R102) and store (R84, R102)
  | lw (rd rs1 : Reg) (imm : BitVec 12)
  | sw (rs1 rs2 : Reg) (imm : BitVec 12)
  -- B format, opcode 0x63 (R85, R101): `off` is the 13-bit displacement, whose bit 0 is not stored and always 0
  | beq (rs1 rs2 : Reg) (off : BitVec 13)
  | bne (rs1 rs2 : Reg) (off : BitVec 13)
  | blt (rs1 rs2 : Reg) (off : BitVec 13)
  | bge (rs1 rs2 : Reg) (off : BitVec 13)
  | bltu (rs1 rs2 : Reg) (off : BitVec 13)
  | bgeu (rs1 rs2 : Reg) (off : BitVec 13)
  -- J* format, opcode 0x6F (R86): `bits` is bits 31:12, whose split is OPEN
  | jal (rd : Reg) (bits : BitVec 20)
  -- IO format (R87)
  | print (rd : Reg)
  | input (rd : Reg)
  -- the all-zero word (R88)
  | halt
  deriving DecidableEq, Repr

end Sys2Proof
end

