-- ==== Sys2Proof/WellFormed.lean ====
section
/-! DEFINITION. Which terms of `Instr` stand for an instruction word. -/

namespace Sys2Proof

/-- The encoding holds no bit 0 of a branch displacement: "imm[0] is not stored; it is always 0" (30_encoding.md
rule R85; the range of R92 is "even values only"). Every other field is as wide as its bits in the word, so nothing
else is to be checked. -/
def Instr.wellFormed : Instr → Bool
  | .beq _ _ off | .bne _ _ off | .blt _ _ off | .bge _ _ off | .bltu _ _ off | .bgeu _ _ off => !off[0]
  | .add .. | .sub .. | .sll .. | .xor .. | .srl .. | .sra .. | .or .. | .and .. => true
  | .addi .. | .xori .. | .ori .. | .andi .. | .slli .. | .srli .. | .srai .. => true
  | .lw .. | .sw .. | .jal .. | .print .. | .input .. | .halt => true

/-- `i` stands for an instruction word. -/
abbrev WellFormed (i : Instr) : Prop := i.wellFormed = true

end Sys2Proof
end

