-- ==== Sys2Proof/Decode.lean ====
section
/-! DEFINITION. The decoder of 30_encoding.md: raw fields (R81), immediates (R90 to R94), the total decode function
(R95, R96, with R103 and R104 for the words it rejects by name), the encoder written from the same formats, and the
decoder's hardware outputs (R95). -/

namespace Sys2Proof

/-- Why a word is no instruction (`Illeg` of R95). -/
inductive Illegal where
  /-- R103: the opcode is not in the map, or the opcode is 0 and the word is not. -/
  | unknownOpcode
  /-- R104: a decoded opcode with an unlisted funct3, funct7 or must-be-zero pattern. -/
  | illegalFunct
  deriving DecidableEq, Repr

/-- What decoding a word gives. -/
inductive Decoded where
  | instr (i : Instr)
  | illegal (k : Illegal)
  deriving DecidableEq, Repr

/-! ### Raw fields (R81) -/

/-- Bits 6:0. -/
def fieldOpcode (w : Word) : BitVec 7 := w.extractLsb' 0 7
/-- Bits 11:7. -/
def fieldRd (w : Word) : Reg := w.extractLsb' 7 5
/-- Bits 14:12. -/
def fieldFunct3 (w : Word) : BitVec 3 := w.extractLsb' 12 3
/-- Bits 19:15. -/
def fieldRs1 (w : Word) : Reg := w.extractLsb' 15 5
/-- Bits 24:20. -/
def fieldRs2 (w : Word) : Reg := w.extractLsb' 20 5
/-- Bits 31:25. -/
def fieldFunct7 (w : Word) : BitVec 7 := w.extractLsb' 25 7
/-- Bits 31:12: must be zero in the IO format (R87), and feed `JAL_OFFSET` in the J* format (R86). -/
def fieldUpper (w : Word) : BitVec 20 := w.extractLsb' 12 20

/-! ### Immediate fields, before sign extension -/

/-- Bits 31:20 (R90). -/
def fieldImmI (w : Word) : BitVec 12 := w.extractLsb' 20 12
/-- imm[11:5] from bits 31:25 and imm[4:0] from bits 11:7 (R91). -/
def fieldImmS (w : Word) : BitVec 12 := fieldFunct7 w ++ fieldRd w
/-- imm[12] from bit 31, imm[11] from bit 7, imm[10:5] from bits 30:25, imm[4:1] from bits 11:8, imm[0] = 0 (R85, R92). -/
def fieldImmB (w : Word) : BitVec 13 :=
  w.extractLsb' 31 1 ++ w.extractLsb' 7 1 ++ w.extractLsb' 25 6 ++ w.extractLsb' 8 4 ++ 0#1

/-! ### Sign extension (R11's `sext_N`) -/

/-- `sext_12`. -/
def sext12 (v : BitVec 12) : Word := v.signExtend 32
/-- `sext_13`. -/
def sext13 (v : BitVec 13) : Word := v.signExtend 32

/-! ### The decode function (R96) -/

/-- Opcode 0x33 (R98). -/
def decodeAluR (f3 : BitVec 3) (f7 : BitVec 7) (rd rs1 rs2 : Reg) : Decoded :=
  if f3 = 0 ∧ f7 = 0x00 then .instr (.add rd rs1 rs2)
  else if f3 = 0 ∧ f7 = 0x20 then .instr (.sub rd rs1 rs2)
  else if f3 = 1 ∧ f7 = 0x00 then .instr (.sll rd rs1 rs2)
  else if f3 = 4 ∧ f7 = 0x00 then .instr (.xor rd rs1 rs2)
  else if f3 = 5 ∧ f7 = 0x00 then .instr (.srl rd rs1 rs2)
  else if f3 = 5 ∧ f7 = 0x20 then .instr (.sra rd rs1 rs2)
  else if f3 = 6 ∧ f7 = 0x00 then .instr (.or rd rs1 rs2)
  else if f3 = 7 ∧ f7 = 0x00 then .instr (.and rd rs1 rs2)
  else .illegal .illegalFunct

/-- Opcode 0x13 (R99, R100). `sh` is bits 24:20, the shift amount. -/
def decodeAluI (f3 : BitVec 3) (f7 : BitVec 7) (rd rs1 sh : Reg) (imm : BitVec 12) : Decoded :=
  if f3 = 0 then .instr (.addi rd rs1 imm)
  else if f3 = 4 then .instr (.xori rd rs1 imm)
  else if f3 = 6 then .instr (.ori rd rs1 imm)
  else if f3 = 7 then .instr (.andi rd rs1 imm)
  else if f3 = 1 ∧ f7 = 0x00 then .instr (.slli rd rs1 sh)
  else if f3 = 5 ∧ f7 = 0x00 then .instr (.srli rd rs1 sh)
  else if f3 = 5 ∧ f7 = 0x20 then .instr (.srai rd rs1 sh)
  else .illegal .illegalFunct

/-- Opcode 0x63 (R101). -/
def decodeBranch (f3 : BitVec 3) (rs1 rs2 : Reg) (off : BitVec 13) : Decoded :=
  if f3 = 0 then .instr (.beq rs1 rs2 off)
  else if f3 = 1 then .instr (.bne rs1 rs2 off)
  else if f3 = 4 then .instr (.blt rs1 rs2 off)
  else if f3 = 5 then .instr (.bge rs1 rs2 off)
  else if f3 = 6 then .instr (.bltu rs1 rs2 off)
  else if f3 = 7 then .instr (.bgeu rs1 rs2 off)
  else .illegal .illegalFunct

/-- The opcode map (R97), for a nonzero word. -/
def decodeOpcode (w : Word) : Decoded :=
  if fieldOpcode w = 0x33 then
    decodeAluR (fieldFunct3 w) (fieldFunct7 w) (fieldRd w) (fieldRs1 w) (fieldRs2 w)
  else if fieldOpcode w = 0x13 then
    decodeAluI (fieldFunct3 w) (fieldFunct7 w) (fieldRd w) (fieldRs1 w) (fieldRs2 w) (fieldImmI w)
  else if fieldOpcode w = 0x03 then
    if fieldFunct3 w = 2 then .instr (.lw (fieldRd w) (fieldRs1 w) (fieldImmI w)) else .illegal .illegalFunct
  else if fieldOpcode w = 0x23 then
    if fieldFunct3 w = 2 then .instr (.sw (fieldRs1 w) (fieldRs2 w) (fieldImmS w)) else .illegal .illegalFunct
  else if fieldOpcode w = 0x63 then
    decodeBranch (fieldFunct3 w) (fieldRs1 w) (fieldRs2 w) (fieldImmB w)
  else if fieldOpcode w = 0x6F then .instr (.jal (fieldRd w) (fieldUpper w))
  else if fieldOpcode w = 0x0B then
    if fieldUpper w = 0 then .instr (.print (fieldRd w)) else .illegal .illegalFunct
  else if fieldOpcode w = 0x0C then
    if fieldUpper w = 0 then .instr (.input (fieldRd w)) else .illegal .illegalFunct
  else .illegal .unknownOpcode

/-- The decode function (R96): total on every word. -/
def decode (w : Word) : Decoded :=
  if w = 0 then .instr .halt else decodeOpcode w

/-! ### Byte order (20_memory.md rule R54) -/

/-- A 4-byte list, the first byte at the lowest address, as a little-endian word (R54). The spec applies it to 4-byte
lists alone; on any other list the value here stands for nothing. -/
def le32 : List Byte → Word
  | [b0, b1, b2, b3] => b3 ++ b2 ++ b1 ++ b0
  | _ => 0

/-- A 4-byte list as a big-endian word (R54); on any other list the value stands for nothing. -/
def be32 : List Byte → Word
  | [b0, b1, b2, b3] => b0 ++ b1 ++ b2 ++ b3
  | _ => 0

/-- The four bytes of a word, most significant first (R54). -/
def bytesBe (v : Word) : List Byte :=
  [v.extractLsb' 24 8, v.extractLsb' 16 8, v.extractLsb' 8 8, v.extractLsb' 0 8]

/-- The four bytes of a word as an image stores it, least significant first (30_encoding.md rule R129). -/
def bytesLe (v : Word) : List Byte :=
  [v.extractLsb' 0 8, v.extractLsb' 8 8, v.extractLsb' 16 8, v.extractLsb' 24 8]

/-! ### The encoder (R82 to R88) -/

/-- R format (R82). -/
def encodeR (f7 : BitVec 7) (rs2 rs1 : Reg) (f3 : BitVec 3) (rd : Reg) (op : BitVec 7) : Word :=
  f7 ++ rs2 ++ rs1 ++ f3 ++ rd ++ op

/-- I format (R83). -/
def encodeI (imm : BitVec 12) (rs1 : Reg) (f3 : BitVec 3) (rd : Reg) (op : BitVec 7) : Word :=
  imm ++ rs1 ++ f3 ++ rd ++ op

/-- S format (R84). -/
def encodeS (imm : BitVec 12) (rs2 rs1 : Reg) : Word :=
  imm.extractLsb' 5 7 ++ rs2 ++ rs1 ++ 2#3 ++ imm.extractLsb' 0 5 ++ 0x23#7

/-- B format (R85). -/
def encodeB (off : BitVec 13) (rs2 rs1 : Reg) (f3 : BitVec 3) : Word :=
  off.extractLsb' 12 1 ++ off.extractLsb' 5 6 ++ rs2 ++ rs1 ++ f3 ++ off.extractLsb' 1 4 ++ off.extractLsb' 11 1 ++ 0x63#7

/-- J* and IO formats (R86, R87): bits 31:12, rd, opcode. -/
def encodeJ (upper : BitVec 20) (rd : Reg) (op : BitVec 7) : Word :=
  upper ++ rd ++ op

/-- The word of an instruction. For an instruction that is not well formed (an odd branch displacement) bit 0 of the
displacement is lost; no decoded word gives one. -/
def encode : Instr → Word
  | .add rd rs1 rs2 => encodeR 0x00 rs2 rs1 0 rd 0x33
  | .sub rd rs1 rs2 => encodeR 0x20 rs2 rs1 0 rd 0x33
  | .sll rd rs1 rs2 => encodeR 0x00 rs2 rs1 1 rd 0x33
  | .xor rd rs1 rs2 => encodeR 0x00 rs2 rs1 4 rd 0x33
  | .srl rd rs1 rs2 => encodeR 0x00 rs2 rs1 5 rd 0x33
  | .sra rd rs1 rs2 => encodeR 0x20 rs2 rs1 5 rd 0x33
  | .or rd rs1 rs2 => encodeR 0x00 rs2 rs1 6 rd 0x33
  | .and rd rs1 rs2 => encodeR 0x00 rs2 rs1 7 rd 0x33
  | .addi rd rs1 imm => encodeI imm rs1 0 rd 0x13
  | .xori rd rs1 imm => encodeI imm rs1 4 rd 0x13
  | .ori rd rs1 imm => encodeI imm rs1 6 rd 0x13
  | .andi rd rs1 imm => encodeI imm rs1 7 rd 0x13
  | .slli rd rs1 sh => encodeR 0x00 sh rs1 1 rd 0x13
  | .srli rd rs1 sh => encodeR 0x00 sh rs1 5 rd 0x13
  | .srai rd rs1 sh => encodeR 0x20 sh rs1 5 rd 0x13
  | .lw rd rs1 imm => encodeI imm rs1 2 rd 0x03
  | .sw rs1 rs2 imm => encodeS imm rs2 rs1
  | .beq rs1 rs2 off => encodeB off rs2 rs1 0
  | .bne rs1 rs2 off => encodeB off rs2 rs1 1
  | .blt rs1 rs2 off => encodeB off rs2 rs1 4
  | .bge rs1 rs2 off => encodeB off rs2 rs1 5
  | .bltu rs1 rs2 off => encodeB off rs2 rs1 6
  | .bgeu rs1 rs2 off => encodeB off rs2 rs1 7
  | .jal rd bits => encodeJ bits rd 0x6F
  | .print rd => encodeJ 0 rd 0x0B
  | .input rd => encodeJ 0 rd 0x0C
  | .halt => 0

/-! ### The decoder's hardware outputs (R95)

The spec's own tagged union, and the six raw fields and three immediates beside it. The machine runs on `Decoded`;
this is the same value in the spec's shape. -/

/-- `AluOp` of R95. -/
inductive AluOp where
  | add | sub | sll | xor | srl | sra | or | and
  deriving DecidableEq, Repr

/-- `Cond` of R95. -/
inductive Cond where
  | eq | ne | lt | ge | ltu | geu
  deriving DecidableEq, Repr

/-- The tagged union `Instr` of R95, with immediates sign-extended to `Word32`. -/
inductive Variant where
  | aluR (op : AluOp) (rd rs1 rs2 : Reg)
  | aluI (op : AluOp) (rd rs1 : Reg) (imm : Word)
  | lw (rd rs1 : Reg) (imm : Word)
  | sw (rs1 rs2 : Reg) (imm : Word)
  | branch (c : Cond) (rs1 rs2 : Reg) (imm : Word)
  | jal (rd : Reg) (off : Word)
  | print (rd : Reg)
  | input (rd : Reg)
  | halt
  | illegal (k : Illegal)
  deriving DecidableEq, Repr

/-- `imm_I` of a shift-immediate: bits 31:25 and the shift amount (R93, R100; 40_alu.md rule R152). -/
def immShift (f7 : BitVec 7) (sh : BitVec 5) : Word := sext12 (f7 ++ sh)

/-- An instruction in the spec's shape. -/
def variantOf : Instr → Variant
  | .add rd rs1 rs2 => .aluR .add rd rs1 rs2
  | .sub rd rs1 rs2 => .aluR .sub rd rs1 rs2
  | .sll rd rs1 rs2 => .aluR .sll rd rs1 rs2
  | .xor rd rs1 rs2 => .aluR .xor rd rs1 rs2
  | .srl rd rs1 rs2 => .aluR .srl rd rs1 rs2
  | .sra rd rs1 rs2 => .aluR .sra rd rs1 rs2
  | .or rd rs1 rs2 => .aluR .or rd rs1 rs2
  | .and rd rs1 rs2 => .aluR .and rd rs1 rs2
  | .addi rd rs1 imm => .aluI .add rd rs1 (sext12 imm)
  | .xori rd rs1 imm => .aluI .xor rd rs1 (sext12 imm)
  | .ori rd rs1 imm => .aluI .or rd rs1 (sext12 imm)
  | .andi rd rs1 imm => .aluI .and rd rs1 (sext12 imm)
  | .slli rd rs1 sh => .aluI .sll rd rs1 (immShift 0x00 sh)
  | .srli rd rs1 sh => .aluI .srl rd rs1 (immShift 0x00 sh)
  | .srai rd rs1 sh => .aluI .sra rd rs1 (immShift 0x20 sh)
  | .lw rd rs1 imm => .lw rd rs1 (sext12 imm)
  | .sw rs1 rs2 imm => .sw rs1 rs2 (sext12 imm)
  | .beq rs1 rs2 off => .branch .eq rs1 rs2 (sext13 off)
  | .bne rs1 rs2 off => .branch .ne rs1 rs2 (sext13 off)
  | .blt rs1 rs2 off => .branch .lt rs1 rs2 (sext13 off)
  | .bge rs1 rs2 off => .branch .ge rs1 rs2 (sext13 off)
  | .bltu rs1 rs2 off => .branch .ltu rs1 rs2 (sext13 off)
  | .bgeu rs1 rs2 off => .branch .geu rs1 rs2 (sext13 off)
  | .jal rd bits => .jal rd (Config.jalOffset (encodeJ bits rd 0x6F))
  | .print rd => .print rd
  | .input rd => .input rd
  | .halt => .halt

/-- The decode function's result in the spec's shape (R96). -/
def decodeVariant (w : Word) : Variant :=
  match decode w with
  | .instr i => variantOf i
  | .illegal k => .illegal k

/-- The decoder's outputs (R95): "the six raw fields of rule R81; imm_I, imm_S and imm_B, computed in parallel; the
decoded `Instr` value". -/
structure DecoderOutputs where
  opcode : BitVec 7
  rd : Reg
  funct3 : BitVec 3
  rs1 : Reg
  rs2 : Reg
  funct7 : BitVec 7
  immI : Word
  immS : Word
  immB : Word
  variant : Variant
  deriving DecidableEq, Repr

/-- The decoder as a combinational function of the word (R95). -/
def decoderOutputs (w : Word) : DecoderOutputs where
  opcode := fieldOpcode w
  rd := fieldRd w
  funct3 := fieldFunct3 w
  rs1 := fieldRs1 w
  rs2 := fieldRs2 w
  funct7 := fieldFunct7 w
  immI := sext12 (fieldImmI w)
  immS := sext12 (fieldImmS w)
  immB := sext13 (fieldImmB w)
  variant := decodeVariant w

/-- The instruction the decoder reads from `nbits` bits of an opcode-table word: the word's bytes as the image holds
them, least significant first, read back as a fetch does, then decoded. -/
def decodeTableWord (nbits w : Nat) : Option Instr :=
  match decode (le32 (bytesLe (BitVec.ofNat 32 (w % 2 ^ nbits)))) with
  | .instr i => some i
  | .illegal _ => none

end Sys2Proof
end

