-- ==== Sys2Proof/Machine/State.lean ====
section
/-! DEFINITION. The machine's state as plain data (00_scope.md rule R14, 10_state.md), the reasons a step can stop,
and the state after reset. -/

namespace Sys2Proof.Machine

/-- The memory array (10_state.md rule R34): the listed bytes, addresses strictly rising; an address that is not
listed reads as 0, the value reset gives every byte (R44), and no listed byte is 0. -/
abbrev Memory := List Host.Cell

/-- Every address is below `lo`'s bound, rising, inside the array, and its byte is not the unlisted value. -/
def Memory.wfFrom : Nat → Memory → Bool
  | _, [] => true
  | lo, (a, v) :: m => decide (lo ≤ a) && decide (a < Config.memSize) && decide (v ≠ 0) && Memory.wfFrom (a + 1) m

/-- The canonical form of memory: addresses strictly rising and below MEM_SIZE, no listed byte equal to 0. -/
def Memory.wf (m : Memory) : Bool := Memory.wfFrom 0 m

/-- The causes of entering HALTED (60_exceptions.md rule R281). -/
inductive Cause where
  | halt
  | unknownOpcode
  | illegalFunct
  | unsupportedInstruction
  | fetchOutOfRange
  | dataOutOfRange
  deriving DecidableEq, Repr

/-- The halt record (10_state.md rule R31). -/
structure HaltRecord where
  cause : BitVec 3
  hpc : Word
  hword : Word
  haddr : Word
  deriving DecidableEq, Repr

/-- A record of the output stream (43_system_io.md rules R251, R253, R254). -/
inductive OutRecord where
  /-- `print rd`: the register's index and its value. -/
  | print (i : Reg) (v : Word)
  /-- The prompt of `input rd`. -/
  | inputPrompt (rd : Reg)
  deriving DecidableEq, Repr

/-- The state. The first six fields are the spec's (R14, and the output stream of R253); the last two are the
model's own (log entries 2 and 3). -/
structure State where
  /-- x[0] .. x[31], all writable (10_state.md rules R20, R21). -/
  regs : Vector Word 32
  /-- The byte address of the next instruction to fetch (R26). -/
  pc : Word
  /-- The running flag: true exactly in RUNNING (R30). -/
  running : Bool
  /-- Why the machine halted (R31). -/
  haltRec : HaltRecord
  /-- The memory array (R34). -/
  mem : Memory
  /-- The output record stream, oldest first (R253). -/
  output : List OutRecord
  /-- The values the host has put on the input channel and no `input` has taken, oldest first (R252, R253). -/
  inputs : List Word
  /-- The implementation parameter EXT_BRANCH (00_scope.md rule R8); no step writes it. -/
  extBranch : ExtBranch
  deriving DecidableEq, Repr

/-- Why a step stops with a fault: it never does. Every fault of the spec is a described transition into HALTED (60_exceptions.md rule R282), a
NEXT state, so there is no constructor and nothing raises one. -/
inductive Fault
  deriving DecidableEq, Repr

/-- Why a step gives no meaning. -/
inductive Refusal where
  /-- Raised by an arm of `exec` for an instruction that has no meaning yet; safe, since the run stops there. No arm
  raises it: every instruction has its meaning. -/
  | notModelled (mnemonic : String)
  deriving DecidableEq, Repr

/-- What a step answers. -/
abbrev Result := Host.Outcome State Fault Refusal

/-- The halt record's reset value (10_state.md rule R43). -/
def HaltRecord.zero : HaltRecord := ⟨0, 0, 0, 0⟩

/-- The machine after reset (10_state.md rules R40 to R44; 70_reset_and_hazards.md rule R320): registers, pc, halt
record and memory zero, RUNNING, the output stream empty. The input channel is empty (log entry 2) and EXT_BRANCH is
its default (R8, log entry 3). -/
def State.reset : State where
  regs := Vector.replicate 32 0
  pc := Config.resetPc
  running := true
  haltRec := HaltRecord.zero
  mem := []
  output := []
  inputs := []
  extBranch := Config.extBranchDefault

end Sys2Proof.Machine
end

