-- ==== Sys2Proof/Machine/Ops.lean ====
section
/-! DEFINITION. The named operations on registers, the program counter, memory and the output stream, and entering
HALTED, the machine's one exception entry. There is no return from it (60_exceptions.md rules R285, R286). -/

namespace Sys2Proof.Machine

/-! ### Registers (10_state.md rules R20 to R25) -/

/-- `x[r]`. Register 0 is ordinary (R21). -/
def State.getReg (s : State) (r : Reg) : Word := s.regs[r.toNat]'(r.isLt)

/-- `x[r] <- v`, for every index including 0 (R21, R25). -/
def State.setReg (s : State) (r : Reg) (v : Word) : State :=
  { s with regs := s.regs.set r.toNat v r.isLt }

/-! ### The register file's ports (R24) -/

/-- Read port A: the register the word's rs1 field names. -/
def State.readPortA (s : State) (w : Word) : Word := s.getReg (fieldRs1 w)

/-- Read port B: the register the word's rs2 field names. -/
def State.readPortB (s : State) (w : Word) : Word := s.getReg (fieldRs2 w)

/-- The write port: the register the word's rd field names, under a write enable. -/
def State.writePort (s : State) (enable : Bool) (w data : Word) : State :=
  if enable then s.setReg (fieldRd w) data else s

/-! ### The program counter (R26, R27) -/

/-- `pc <- t`. -/
def State.setPc (s : State) (t : Word) : State := { s with pc := t }

/-- `pc <- pc + 4`, modulo 2^32 (R27). -/
def State.advance (s : State) : State := s.setPc (s.pc + 4)

/-! ### Memory (10_state.md rule R34; 20_memory.md rules R50 to R54) -/

/-- What a byte that is not listed reads as: 0, the reset value of every byte (R44). -/
def Memory.unlisted : Byte := 0

/-- `mem[a]`. -/
def Memory.readByte : Memory → Nat → Byte
  | [], _ => Memory.unlisted
  | (b, v) :: m, a => if b = a then v else Memory.readByte m a

/-- Memory without an entry for `a`. -/
def Memory.eraseByte : Memory → Nat → Memory
  | [], _ => []
  | (b, v) :: m, a => if b = a then Memory.eraseByte m a else (b, v) :: Memory.eraseByte m a

/-- Memory with an entry for `a` put before the first entry of a higher address. -/
def Memory.insertByte : Memory → Nat → Byte → Memory
  | [], a, v => [(a, v)]
  | (b, u) :: m, a, v => if a < b then (a, v) :: (b, u) :: m else (b, u) :: Memory.insertByte m a v

/-- `mem[a] <- v`. Writing the unlisted value removes the entry, so that equal memories are equal lists. -/
def Memory.writeByte (m : Memory) (a : Nat) (v : Byte) : Memory :=
  if v = Memory.unlisted then m.eraseByte a else (m.eraseByte a).insertByte a v

/-- The bytes of `n` addresses from `a` on. -/
def Memory.readBytes (m : Memory) (a : Nat) : Nat → List Byte
  | 0 => []
  | n + 1 => m.readByte a :: Memory.readBytes m (a + 1) n

/-- Writes a list of bytes to the addresses from `a` on. -/
def Memory.writeBytes (m : Memory) (a : Nat) : List Byte → Memory
  | [] => m
  | b :: bs => Memory.writeBytes (m.writeByte a b) (a + 1) bs

/-- The range test of an access of `n` bytes at `a` (R51): the unsigned address, no wrap at the end of memory. -/
abbrev InRange (a : Word) (n : Nat) : Prop := a.toNat + n ≤ Config.memSize

/-- `MemRead(a, n)` (R52), used only after the range test has passed. -/
def State.memRead (s : State) (a : Word) (n : Nat) : List Byte := s.mem.readBytes a.toNat n

/-- `MemWrite(a, n, bs)` (R53), used only after the range test has passed. -/
def State.memWrite (s : State) (a : Word) (bs : List Byte) : State :=
  { s with mem := s.mem.writeBytes a.toNat bs }

/-! ### The host I/O port, as the block drives it (43_system_io.md rule R253) -/

/-- `emit r`: appends one record to the output stream. -/
def State.emit (s : State) (r : OutRecord) : State := { s with output := s.output ++ [r] }

/-! ### Entering HALTED (60_exceptions.md rules R281, R282) -/

/-- The cause's code (R281). -/
def Cause.code : Cause → BitVec 3
  | .halt => 0
  | .unknownOpcode => 1
  | .illegalFunct => 2
  | .unsupportedInstruction => 3
  | .fetchOutOfRange => 4
  | .dataOutOfRange => 5

/-- Enters HALTED with a cause: the running flag becomes false and the halt record is written; nothing else changes,
the pc included (R282). `hpc` is the pc of the instruction that halts the machine. -/
def State.enterHalted (s : State) (c : Cause) (hword haddr : Word) : State :=
  { s with running := false, haltRec := ⟨c.code, s.pc, hword, haddr⟩ }

/-- `raise F(hpc = pc, hword, haddr)` (R282), a NEXT state. -/
def raiseFault (c : Cause) (hword haddr : Word) (s : State) : Result :=
  .next (s.enterHalted c hword haddr)

/-- The cause a word that is no instruction halts the machine with (30_encoding.md rule R110). -/
def causeOfIllegal : Illegal → Cause
  | .unknownOpcode => .unknownOpcode
  | .illegalFunct => .illegalFunct

/-! ### Fetching (20_memory.md rule R55) -/

/-- The word at the pc, little-endian, if the four bytes are inside memory (R51, R55). No alignment is asked (R60). -/
def fetch (s : State) : Option Word :=
  if InRange s.pc 4 then some (le32 (s.memRead s.pc 4)) else none

/-- A fetch outside memory: FetchOutOfRange with hword = 0 and haddr = 0 (R61). -/
def takeFetchFault (s : State) : Result := raiseFault .fetchOutOfRange 0 0 s

/-- A word that is no instruction: its cause, with hword the word and haddr = 0 (30_encoding.md rule R110). -/
def takeIllegal (k : Illegal) (w : Word) (s : State) : Result := raiseFault (causeOfIllegal k) w 0 s

/-- What a step answers in HALTED: the block takes no step, so nothing changes (30_encoding.md rule R110,
60_exceptions.md rule R286; log entry 1). -/
def idleWhenHalted (s : State) : Result := .next s

/-- What `input` answers while the host has supplied no value: the step is held and all state survives unchanged
(43_system_io.md rule R252, 60_exceptions.md rule R291; log entry 1). -/
def holdForInput (s : State) : Result := .next s

end Sys2Proof.Machine
end

