-- ==== Sys2Proof/Machine/Operands.lean ====
section
/-! DEFINITION. Every operand form: the immediates as words (30_encoding.md rules R90 to R94), the shift amount
(R93; 40_alu.md rule R152), the effective address (41_load_store.md rule R200), and branch and jump targets. -/

namespace Sys2Proof.Machine

/-- `imm_I` (R90). -/
def immI (imm : BitVec 12) : Word := sext12 imm

/-- `imm_S` (R91). -/
def immS (imm : BitVec 12) : Word := sext12 imm

/-- `imm_B` (R92). -/
def immB (off : BitVec 13) : Word := sext13 off

/-- The shift amount: the low 5 bits of the second operand, an integer 0..31 (R93, R152). -/
def shiftAmount (b : Word) : Nat := (b.extractLsb' 0 5).toNat

/-- The effective address `x[rs1] + imm`, modulo 2^32 (R200). -/
def effectiveAddr (s : State) (rs1 : Reg) (imm : BitVec 12) : Word := s.getReg rs1 + sext12 imm

/-- The branch target `pc + imm_B`, modulo 2^32 (42_control.md rule R220). -/
def branchTarget (s : State) (off : BitVec 13) : Word := s.pc + immB off

/-- The link value `pc + 4`, modulo 2^32 (42_control.md rule R227). -/
def linkValue (s : State) : Word := s.pc + 4

/-- The jump target `pc + JAL_OFFSET(w)`, modulo 2^32 (R227). -/
def jumpTarget (s : State) (w : Word) : Word := s.pc + Config.jalOffset w

end Sys2Proof.Machine
end

