-- ==== Sys2Proof/Machine/Alu.lean ====
section
/-! DEFINITION. The ALU (40_alu.md rules R150 to R155) and the fifteen instructions that use it (R160 to R176). -/

namespace Sys2Proof.Machine

/-- The ALU: combinational, no state, no flag outputs (R150, R151). Shifts use the low 5 bits of `b` (R152). -/
def alu : AluOp → Word → Word → Word
  | .add, a, b => a + b
  | .sub, a, b => a - b
  | .sll, a, b => a <<< shiftAmount b
  | .xor, a, b => a ^^^ b
  | .srl, a, b => a >>> shiftAmount b
  | .sra, a, b => a.sshiftRight (shiftAmount b)
  | .or, a, b => a ||| b
  | .and, a, b => a &&& b

/-- How every ALU instruction ends: `x[rd] <- v; pc <- pc + 4` (R153). -/
def writeResult (rd : Reg) (v : Word) (s : State) : State := (s.setReg rd v).advance

/-- `AluR`: operands `x[rs1]` and `x[rs2]` (30_encoding.md rule R111). -/
def aluReg (op : AluOp) (rd rs1 rs2 : Reg) (s : State) : Result :=
  .next (writeResult rd (alu op (s.getReg rs1) (s.getReg rs2)) s)

/-- `AluI`: operands `x[rs1]` and `imm_I` (R111). -/
def aluImm (op : AluOp) (rd rs1 : Reg) (imm : Word) (s : State) : Result :=
  .next (writeResult rd (alu op (s.getReg rs1) imm) s)

/-- `add` (R160). -/
def execAdd (rd rs1 rs2 : Reg) (s : State) : Result := aluReg .add rd rs1 rs2 s
/-- `sub` (R161). -/
def execSub (rd rs1 rs2 : Reg) (s : State) : Result := aluReg .sub rd rs1 rs2 s
/-- `sll` (R162). -/
def execSll (rd rs1 rs2 : Reg) (s : State) : Result := aluReg .sll rd rs1 rs2 s
/-- `xor` (R163). -/
def execXor (rd rs1 rs2 : Reg) (s : State) : Result := aluReg .xor rd rs1 rs2 s
/-- `srl` (R164). -/
def execSrl (rd rs1 rs2 : Reg) (s : State) : Result := aluReg .srl rd rs1 rs2 s
/-- `sra` (R165). -/
def execSra (rd rs1 rs2 : Reg) (s : State) : Result := aluReg .sra rd rs1 rs2 s
/-- `or` (R166). -/
def execOr (rd rs1 rs2 : Reg) (s : State) : Result := aluReg .or rd rs1 rs2 s
/-- `and` (R167). -/
def execAnd (rd rs1 rs2 : Reg) (s : State) : Result := aluReg .and rd rs1 rs2 s

/-- `addi` (R170). -/
def execAddi (rd rs1 : Reg) (imm : BitVec 12) (s : State) : Result := aluImm .add rd rs1 (immI imm) s
/-- `xori` (R171). -/
def execXori (rd rs1 : Reg) (imm : BitVec 12) (s : State) : Result := aluImm .xor rd rs1 (immI imm) s
/-- `ori` (R172). -/
def execOri (rd rs1 : Reg) (imm : BitVec 12) (s : State) : Result := aluImm .or rd rs1 (immI imm) s
/-- `andi` (R173). -/
def execAndi (rd rs1 : Reg) (imm : BitVec 12) (s : State) : Result := aluImm .and rd rs1 (immI imm) s

/-- `slli` (R174): `imm_I` is the shift amount. -/
def execSlli (rd rs1 : Reg) (sh : BitVec 5) (s : State) : Result := aluImm .sll rd rs1 (immShift 0x00 sh) s
/-- `srli` (R175). -/
def execSrli (rd rs1 : Reg) (sh : BitVec 5) (s : State) : Result := aluImm .srl rd rs1 (immShift 0x00 sh) s
/-- `srai` (R176): `imm_I` is 0x400 + shamt, of which the ALU uses the low 5 bits (R152). -/
def execSrai (rd rs1 : Reg) (sh : BitVec 5) (s : State) : Result := aluImm .sra rd rs1 (immShift 0x20 sh) s

end Sys2Proof.Machine
end

