-- ==== Sys2Proof/Machine/Flags.lean ====
section
/-! DEFINITION. The machine has no flags (10_state.md rule R32): a branch compares two registers directly. This file
holds that comparator (42_control.md rules R220 to R226). -/

namespace Sys2Proof.Machine

/-- The branch comparator: signed for LT and GE, unsigned for LTU and GEU. -/
def condHolds : Cond → Word → Word → Bool
  | .eq, a, b => decide (a = b)
  | .ne, a, b => decide (a ≠ b)
  | .lt, a, b => decide (a.toInt < b.toInt)
  | .ge, a, b => decide (b.toInt ≤ a.toInt)
  | .ltu, a, b => decide (a.toNat < b.toNat)
  | .geu, a, b => decide (b.toNat ≤ a.toNat)

end Sys2Proof.Machine
end

