-- ==== Sys2Proof/Machine/Control.lean ====
section
/-! DEFINITION. Branches and the jump (42_control.md rules R220 to R230). No target is checked: a target outside
memory faults at the next fetch (R229). -/

namespace Sys2Proof.Machine

/-- A branch on a condition: `pc + imm_B` if it holds, else `pc + 4` (R220). -/
def branchOn (c : Cond) (rs1 rs2 : Reg) (off : BitVec 13) (s : State) : Result :=
  .next (if condHolds c (s.getReg rs1) (s.getReg rs2) then s.setPc (branchTarget s off) else s.advance)

/-- One of the four branches governed by EXT_BRANCH (00_scope.md rule R8): UnsupportedInstruction under `reject`, the
comparison under `rv32i`. `w` is the instruction word. -/
def extBranchOn (w : Word) (c : Cond) (rs1 rs2 : Reg) (off : BitVec 13) (s : State) : Result :=
  match s.extBranch with
  | .reject => raiseFault .unsupportedInstruction w 0 s
  | .rv32i => branchOn c rs1 rs2 off s

/-- `beq` (R221). -/
def execBeq (rs1 rs2 : Reg) (off : BitVec 13) (s : State) : Result := branchOn .eq rs1 rs2 off s
/-- `bne` (R222). -/
def execBne (rs1 rs2 : Reg) (off : BitVec 13) (s : State) : Result := branchOn .ne rs1 rs2 off s
/-- `blt` (R223). -/
def execBlt (rs1 rs2 : Reg) (off : BitVec 13) (s : State) : Result :=
  extBranchOn (encode (.blt rs1 rs2 off)) .lt rs1 rs2 off s
/-- `bge` (R224). -/
def execBge (rs1 rs2 : Reg) (off : BitVec 13) (s : State) : Result :=
  extBranchOn (encode (.bge rs1 rs2 off)) .ge rs1 rs2 off s
/-- `bltu` (R225). -/
def execBltu (rs1 rs2 : Reg) (off : BitVec 13) (s : State) : Result :=
  extBranchOn (encode (.bltu rs1 rs2 off)) .ltu rs1 rs2 off s
/-- `bgeu` (R226). -/
def execBgeu (rs1 rs2 : Reg) (off : BitVec 13) (s : State) : Result :=
  extBranchOn (encode (.bgeu rs1 rs2 off)) .geu rs1 rs2 off s

/-- `jal` (R227): `x[rd] <- pc + 4; pc <- pc + JAL_OFFSET(w)`. -/
def execJal (rd : Reg) (bits : BitVec 20) (s : State) : Result :=
  .next ((s.setReg rd (linkValue s)).setPc (jumpTarget s (encode (.jal rd bits))))

end Sys2Proof.Machine
end

