-- ==== Sys2Proof/Machine/LoadStore.lean ====
section
/-! DEFINITION. `lw` and `sw` (41_load_store.md rules R200 to R203): big-endian data access (20_memory.md rule R56). -/

namespace Sys2Proof.Machine

/-- `lw rd, imm(rs1)` (R201). An address out of range raises DataOutOfRange and changes no register (R62). -/
def execLw (rd rs1 : Reg) (imm : BitVec 12) (s : State) : Result :=
  if InRange (effectiveAddr s rs1 imm) 4 then
    .next (s.setReg rd (be32 (s.memRead (effectiveAddr s rs1 imm) 4))).advance
  else
    raiseFault .dataOutOfRange (encode (.lw rd rs1 imm)) (effectiveAddr s rs1 imm) s

/-- `sw rs2, imm(rs1)` (R202). An address out of range raises DataOutOfRange and writes no byte (R62). -/
def execSw (rs1 rs2 : Reg) (imm : BitVec 12) (s : State) : Result :=
  if InRange (effectiveAddr s rs1 imm) 4 then
    .next (s.memWrite (effectiveAddr s rs1 imm) (bytesBe (s.getReg rs2))).advance
  else
    raiseFault .dataOutOfRange (encode (.sw rs1 rs2 imm)) (effectiveAddr s rs1 imm) s

end Sys2Proof.Machine
end

