-- ==== Sys2Proof/Machine/SystemIo.lean ====
section
/-! DEFINITION. `halt`, `print` and `input` (43_system_io.md rules R250 to R254). -/

namespace Sys2Proof.Machine

/-- `halt` (R250): HALTED with cause 0, hword = 0, haddr = 0; the pc is not changed. -/
def execHalt (s : State) : Result := .next (s.enterHalted .halt 0 0)

/-- `print rd` (R251): `emit Print(rd, x[rd]); pc <- pc + 4`. -/
def execPrint (rd : Reg) (s : State) : Result := .next (s.emit (.print rd (s.getReg rd))).advance

/-- `input` completing with the value `v` (R252): the prompt record, `x[rd] <- v`, `pc <- pc + 4`; `rest` stays on
the channel. The prompt record is appended with the step's other writes (00_scope.md rule R13; log entry 5). -/
def completeInput (rd : Reg) (v : Word) (rest : List Word) (s : State) : State :=
  (({ s with inputs := rest }.emit (.inputPrompt rd)).setReg rd v).advance

/-- `input rd` (R252): takes the next value the host supplied, and is held while there is none. -/
def execInput (rd : Reg) (s : State) : Result :=
  match s.inputs with
  | [] => holdForInput s
  | v :: rest => .next (completeInput rd v rest s)

end Sys2Proof.Machine
end

