-- ==== Sys2Proof/Machine/Step.lean ====
section
/-! DEFINITION. One step: fetch, decode, dispatch (30_encoding.md rule R110). -/

namespace Sys2Proof.Machine

/-- A step of a running machine: the checks run in the order of 60_exceptions.md rule R284. -/
def stepRunning (s : State) : Host.Outcome State Fault Refusal :=
  match fetch s with
  | none => takeFetchFault s
  | some w =>
    match decode w with
    | .instr i => exec i s
    | .illegal k => takeIllegal k w s

/-- A step. In HALTED there is none, and nothing changes (R110; 60_exceptions.md rule R286). -/
def step (s : State) : Host.Outcome State Fault Refusal :=
  if s.running then stepRunning s else idleWhenHalted s

/-- `s` with a word of `nbits` bits stored where `step` fetches, little-endian as the image holds it (20_memory.md
rule R55). Nothing but those four bytes changes. In RUNNING with the pc inside memory the very next step runs it;
with the pc outside memory no word can stand there and nothing is stored. -/
def State.withFetchWord (s : State) (nbits w : Nat) : State :=
  if InRange s.pc 4 then s.memWrite s.pc (bytesLe (BitVec.ofNat 32 (w % 2 ^ nbits))) else s

end Sys2Proof.Machine
end

