-- ==== Sys2Proof/Machine/Assembler.lean ====
section
/-! DEFINITION. The two-pass assembler (30_encoding.md rules R120 to R132). It is toolchain, not hardware (00_scope.md
rule R5): it says which text gives which image, and no step of the machine uses it. -/

namespace Sys2Proof.Asm

/-- A token of assembly text. -/
abbrev Token := List Char

/-- Why the assembler aborts (R130). -/
inductive AsmError where
  /-- An unknown mnemonic or malformed operands (R125, R130). -/
  | malformed
  /-- A branch to a label that is not defined (R126). -/
  | undefinedLabel
  /-- A label defined twice (R122). -/
  | duplicateLabel
  /-- A register index outside 0..31 (R123). -/
  | registerOutOfRange
  /-- An immediate or a shift amount out of range (R124). -/
  | immediateOutOfRange
  /-- A branch offset that is odd or outside -4096 .. 4094 (R126). -/
  | branchOffset
  deriving DecidableEq, Repr

/-- What the assembler answers: a value, or the offending line (counted from 1) and the error (R130). -/
abbrev AsmResult (α : Type) := Except (Nat × AsmError) α

/-! ### Lines and tokens (R120, R121) -/

/-- The delimiters: space, tab, comma and parentheses (R120). -/
def isDelimiter (c : Char) : Bool :=
  c == ' ' || c == '\t' || c == ',' || c == '(' || c == ')'

/-- Splits at delimiters; `cur` is the token read so far, last character first. -/
def tokensFrom : List Char → Token → List Token
  | [], cur => if cur.isEmpty then [] else [cur.reverse]
  | c :: cs, cur =>
    if isDelimiter c then
      if cur.isEmpty then tokensFrom cs [] else cur.reverse :: tokensFrom cs []
    else tokensFrom cs (c :: cur)

/-- The tokens of a line: runs of delimiters count as one separator, leading and trailing ones are ignored (R120). -/
def tokens (line : List Char) : List Token := tokensFrom line []

/-- Splits at newlines; `cur` is the line read so far, last character first. -/
def linesFrom : List Char → List Char → List (List Char)
  | [], cur => [cur.reverse]
  | c :: cs, cur => if c == '\n' then cur.reverse :: linesFrom cs [] else linesFrom cs (c :: cur)

/-- A line: its label, if its first token ends with a colon, and the tokens of its instruction (R121). -/
structure Line where
  label : Option Token
  body : List Token
  deriving DecidableEq, Repr

/-- Takes a line's tokens apart (R121). -/
def lineOf : List Token → Line
  | [] => ⟨none, []⟩
  | t :: rest => if t.getLast? = some ':' then ⟨some t.dropLast, rest⟩ else ⟨none, t :: rest⟩

/-- The lines of a text. -/
def linesOf (text : List Char) : List Line := (linesFrom text []).map (lineOf ∘ tokens)

/-- How far a line advances the address: 4 for a line that bears an instruction, else 0 (R122). -/
def Line.size (l : Line) : Nat := if l.body.isEmpty then 0 else 4

/-! ### First pass: labels (R122) -/

/-- The labels and their addresses, in the order of the text. -/
abbrev Labels := List (Token × Nat)

/-- Resolves the labels of the lines from line `n` at address `addr`, after those of `seen` (R122). -/
def resolveFrom : List Line → Nat → Nat → Labels → AsmResult Labels
  | [], _, _, seen => .ok seen
  | l :: ls, n, addr, seen =>
    match l.label with
    | none => resolveFrom ls (n + 1) (addr + l.size) seen
    | some name =>
      if (seen.lookup name).isSome then .error (n, .duplicateLabel)
      else resolveFrom ls (n + 1) (addr + l.size) (seen ++ [(name, addr)])

/-- The first pass. -/
def resolveLabels (ls : List Line) : AsmResult Labels := resolveFrom ls 1 0 []

/-! ### Operands (R123 to R126) -/

/-- The value of a decimal digit. -/
def digitValue (c : Char) : Option Nat :=
  if 48 ≤ c.toNat ∧ c.toNat ≤ 57 then some (c.toNat - 48) else none

/-- Reads decimal digits after a value read so far. -/
def natFrom : Token → Nat → Option Nat
  | [], acc => some acc
  | c :: cs, acc =>
    match digitValue c with
    | some d => natFrom cs (acc * 10 + d)
    | none => none

/-- A nonempty run of decimal digits. -/
def parseNat : Token → Option Nat
  | [] => none
  | t => natFrom t 0

/-- A decimal integer with an optional leading minus (R124). -/
def parseInt : Token → Option Int
  | '-' :: ds => (parseNat ds).map fun n => -(n : Int)
  | t => (parseNat t).map fun n => (n : Int)

/-- A register: `x<N>` or bare `N`, N from 0 to 31 (R123). -/
def parseReg (t : Token) : Except AsmError Reg :=
  match parseNat (match t with | 'x' :: ds => ds | ds => ds) with
  | none => .error .malformed
  | some n => if n ≤ 31 then .ok (BitVec.ofNat 5 n) else .error .registerOutOfRange

/-- A 12-bit signed immediate (R124). -/
def parseImm12 (t : Token) : Except AsmError (BitVec 12) :=
  match parseInt t with
  | none => .error .malformed
  | some n => if -2048 ≤ n ∧ n ≤ 2047 then .ok (BitVec.ofInt 12 n) else .error .immediateOutOfRange

/-- A shift amount (R124). -/
def parseShamt (t : Token) : Except AsmError (BitVec 5) :=
  match parseInt t with
  | none => .error .malformed
  | some n => if 0 ≤ n ∧ n ≤ 31 then .ok (BitVec.ofInt 5 n) else .error .immediateOutOfRange

/-- A branch target: a label, never a number (R125); its offset from the instruction's address (R126). -/
def parseTarget (labels : Labels) (addr : Nat) (t : Token) : Except AsmError (BitVec 13) :=
  if (parseInt t).isSome then .error .malformed
  else
    match labels.lookup t with
    | none => .error .undefinedLabel
    | some target =>
      if -4096 ≤ (target : Int) - addr ∧ (target : Int) - addr ≤ 4094 ∧ ((target : Int) - addr) % 2 = 0 then
        .ok (BitVec.ofInt 13 ((target : Int) - addr))
      else .error .branchOffset

/-! ### Instructions (R125) -/

/-- `op rd, rs1, rs2`. -/
def opsR : List (Token × (Reg → Reg → Reg → Instr)) :=
  [("add".toList, .add), ("sub".toList, .sub), ("sll".toList, .sll), ("xor".toList, .xor),
   ("srl".toList, .srl), ("sra".toList, .sra), ("or".toList, .or), ("and".toList, .and)]

/-- `op rd, rs1, imm`. -/
def opsI : List (Token × (Reg → Reg → BitVec 12 → Instr)) :=
  [("addi".toList, .addi), ("xori".toList, .xori), ("ori".toList, .ori), ("andi".toList, .andi)]

/-- `op rd, rs1, shamt`. -/
def opsShift : List (Token × (Reg → Reg → BitVec 5 → Instr)) :=
  [("slli".toList, .slli), ("srli".toList, .srli), ("srai".toList, .srai)]

/-- `op rs1, rs2, label`. -/
def opsB : List (Token × (Reg → Reg → BitVec 13 → Instr)) :=
  [("beq".toList, .beq), ("bne".toList, .bne), ("blt".toList, .blt),
   ("bge".toList, .bge), ("bltu".toList, .bltu), ("bgeu".toList, .bgeu)]

/-- `op rd`. -/
def opsIo : List (Token × (Reg → Instr)) := [("print".toList, .print), ("input".toList, .input)]

/-- Three operands, read from left to right. -/
def three {α β γ : Type} (pa : Token → Except AsmError α) (pb : Token → Except AsmError β)
    (pc : Token → Except AsmError γ) (f : α → β → γ → Instr) : List Token → Except AsmError Instr
  | [a, b, c] =>
    match pa a, pb b, pc c with
    | .error e, _, _ => .error e
    | _, .error e, _ => .error e
    | _, _, .error e => .error e
    | .ok x, .ok y, .ok z => .ok (f x y z)
  | _ => .error .malformed

/-- One operand. -/
def oneReg (f : Reg → Instr) : List Token → Except AsmError Instr
  | [a] =>
    match parseReg a with
    | .error e => .error e
    | .ok x => .ok (f x)
  | _ => .error .malformed

/-- The instruction a line's tokens stand for at address `addr`: one of the 26 mnemonics of R125, never `jal` (R132)
and no pseudo-instruction (R131). -/
def parseInstr (labels : Labels) (addr : Nat) : List Token → Except AsmError Instr
  | [] => .error .malformed
  | m :: ops =>
    match opsR.lookup m, opsI.lookup m, opsShift.lookup m, opsB.lookup m, opsIo.lookup m with
    | some f, _, _, _, _ => three parseReg parseReg parseReg f ops
    | _, some f, _, _, _ => three parseReg parseReg parseImm12 f ops
    | _, _, some f, _, _ => three parseReg parseReg parseShamt f ops
    | _, _, _, some f, _ => three parseReg parseReg (parseTarget labels addr) f ops
    | _, _, _, _, some f => oneReg f ops
    | _, _, _, _, _ =>
      if m = "lw".toList then three parseReg parseImm12 parseReg (fun rd imm rs1 => .lw rd rs1 imm) ops
      else if m = "sw".toList then three parseReg parseImm12 parseReg (fun rs2 imm rs1 => .sw rs1 rs2 imm) ops
      else if m = "halt".toList then (if ops.isEmpty then .ok .halt else .error .malformed)
      else .error .malformed

/-! ### Second pass: the image (R127 to R130) -/

/-- The instructions of the lines from line `n` at address `addr`, one per line that bears one. -/
def instrsFrom (labels : Labels) : List Line → Nat → Nat → AsmResult (List Instr)
  | [], _, _ => .ok []
  | l :: ls, n, addr =>
    if l.body.isEmpty then instrsFrom labels ls (n + 1) addr
    else
      match parseInstr labels addr l.body with
      | .error e => .error (n, e)
      | .ok i =>
        match instrsFrom labels ls (n + 1) (addr + 4) with
        | .error e => .error e
        | .ok is => .ok (i :: is)

/-- The instructions of a text: the first pass, then the second. -/
def assembleInstrs (text : List Char) : AsmResult (List Instr) :=
  match resolveLabels (linesOf text) with
  | .error e => .error e
  | .ok labels => instrsFrom labels (linesOf text) 1 0

/-- An image: 4-byte little-endian words in program order, no header (R129). -/
def imageOf (is : List Instr) : List Byte := is.flatMap fun i => bytesLe (encode i)

/-- The image of a text, or the first error (R130). -/
def assemble (text : String) : AsmResult (List Byte) :=
  match assembleInstrs text.toList with
  | .error e => .error e
  | .ok is => .ok (imageOf is)

end Sys2Proof.Asm
end

