-- ==== Sys2Proof/Machine/HostPort.lean ====
section
/-! DEFINITION. What the host can do and when (60_exceptions.md rule R292): reset, load, run, supply input, read
output, read status; and the text it renders for the output stream (43_system_io.md rules R251, R254). How far a run
has come is the host's knowledge, not state of the machine (00_scope.md rule R14), so that it stands beside the
machine in Session. No step of the machine uses this file. -/

namespace Sys2Proof.Machine

/-! ### What an interaction does to the machine -/

/-- The machine after `reset()` (70_reset_and_hazards.md rule R320): every piece of state at its reset value. The
parameter EXT_BRANCH is not state and stays (log entry 3); the input channel is emptied (log entry 2). -/
def State.resetAll (s : State) : State := { State.reset with extBranch := s.extBranch }

/-- The machine with the bytes of an image copied to memory from offset 0 (R321). -/
def State.loadImage (s : State) (bytes : List Byte) : State :=
  { s with mem := s.mem.writeBytes Config.imageBase bytes }

/-- The machine with one more value on the input channel (43_system_io.md rules R252, R253). -/
def State.supply (s : State) (v : Word) : State := { s with inputs := s.inputs ++ [v] }

/-- The machine is RUNNING and held in `input`: the instruction at the pc is `input` and the host has supplied no
value (60_exceptions.md rule R291). -/
def inputHeld (s : State) : Bool :=
  match s.running, s.inputs, fetch s with
  | true, [], some w =>
    match decode w with
    | .instr (.input _) => true
    | _ => false
  | _, _, _ => false

/-! ### When: the machine in the host's hands (R292, the column "when") -/

/-- How far the host has come since the last reset. -/
inductive HostPhase where
  /-- Reset, no image loaded yet. -/
  | afterReset
  /-- An image is loaded and the block has not been told to run. -/
  | loaded
  /-- The block has been told to run: it steps, is held in `input`, or is in HALTED. -/
  | started
  deriving DecidableEq, Repr

/-- The machine and how far the host has come with it. -/
structure Session where
  machine : State
  phase : HostPhase
  deriving DecidableEq, Repr

/-- reset: at any time. -/
def hostReset (x : Session) : Session := ⟨x.machine.resetAll, .afterReset⟩

/-- load: after reset and before the first step, so never into a machine that runs, is held or has halted; refused
when the bytes are more than MEM_SIZE (R321). A second load before the run is taken (DESIGN CHOICE, safe, log entry
16). -/
def hostLoad (bytes : List Byte) (x : Session) : Option Session :=
  if x.phase ≠ .started ∧ bytes.length ≤ Config.imageMax then some ⟨x.machine.loadImage bytes, .loaded⟩ else none

/-- run: after load. From here on the block takes its own steps (blockStep). A second run of a started machine, in
HALTED too, is refused (R292 neither allows nor forbids it: DESIGN CHOICE, safe, log entry 16). -/
def hostRun (x : Session) : Option Session :=
  if x.phase = .loaded then some ⟨x.machine, .started⟩ else none

/-- supply input: one word, while an `input` is held. -/
def supplyInput (v : Word) (x : Session) : Option Session :=
  if x.phase = .started ∧ inputHeld x.machine = true then some ⟨x.machine.supply v, .started⟩ else none

/-- read output: at any time. -/
def readOutput (x : Session) : List OutRecord := x.machine.output

/-- read status: at any time, the running flag and the halt record. -/
def readStatus (x : Session) : Bool × HaltRecord := (x.machine.running, x.machine.haltRec)

/-- A step of the block itself: only after run, in RUNNING, and not while an `input` is held (30_encoding.md rule
R110; 60_exceptions.md rules R286, R291). -/
def blockStep (x : Session) : Option Session :=
  if x.phase = .started ∧ x.machine.running = true ∧ inputHeld x.machine = false then
    match step x.machine with
    | .next t => some ⟨t, .started⟩
    | _ => none
  else none

/-- The host's moves that change anything; it has no other (R292). -/
inductive HostMove where
  | reset
  | load (bytes : List Byte)
  | run
  | supplyInput (v : Word)
  deriving DecidableEq, Repr

/-- What a move of the host gives; none where the rule does not allow it. -/
def hostMove : HostMove → Session → Option Session
  | .reset, x => some (hostReset x)
  | .load bytes, x => hostLoad bytes x
  | .run, x => hostRun x
  | .supplyInput v, x => supplyInput v x

/-- The start-up sequence `reset(); load(image)`, then run (R322); none if the image is refused, in which case the
machine is not started. -/
def startUp (image : List Byte) (x : Session) : Option Session := (hostLoad image (hostReset x)).bind hostRun

/-! ### The end of a run, and the host's text -/

/-- The run has ended: the block is in HALTED (R294). -/
def runEnded (s : State) : Bool := !s.running

/-- The run has ended normally: cause 0 (R294). -/
def endedNormally (s : State) : Bool := runEnded s && decide (s.haltRec.cause = Cause.halt.code)

/-- The run has ended with a fault: causes 1 to 5 (R294). -/
def endedWithFault (s : State) : Bool := runEnded s && decide (s.haltRec.cause ≠ Cause.halt.code)

/-- The host's text of `Print(i, v)`: the line `x<i> = <s(v)>` and a newline (R251). -/
def renderPrint (i : Reg) (v : Word) : String :=
  "x" ++ toString i.toNat ++ " = " ++ toString v.toInt ++ "\n"

/-- The text of the record at place `n` of the stream. A prompt's text is unspecified (R254, log entry 6). -/
def renderRecord (n : Nat) : OutRecord → String
  | .print i v => renderPrint i v
  | .inputPrompt rd => Config.promptText n rd

/-- The text of the records from place `n` on. -/
def renderFrom : Nat → List OutRecord → String
  | _, [] => ""
  | n, r :: rs => renderRecord n r ++ renderFrom (n + 1) rs

/-- The text the host has shown. -/
def renderOutput (s : State) : String := renderFrom 0 s.output

end Sys2Proof.Machine
end

