-- ==== Sys2Proof/Safety.lean ====
section
/-! DEFINITION. The terms claims use: frames (what a step leaves unchanged), what HALTED means, and the machine's
invariant. -/

namespace Sys2Proof.Machine

/-- Every byte of memory reads as before. -/
def SameMemory (s t : State) : Prop := ∀ a, t.mem.readByte a = s.mem.readByte a

/-- Every register reads as before. -/
def SameRegs (s t : State) : Prop := ∀ r, t.getReg r = s.getReg r

/-- Every register but `rd` reads as before. -/
def SameRegsExcept (rd : Reg) (s t : State) : Prop := ∀ r, r ≠ rd → t.getReg r = s.getReg r

/-- The running flag, the halt record and the parameter EXT_BRANCH are as before. -/
def SameControl (s t : State) : Prop :=
  t.running = s.running ∧ t.haltRec = s.haltRec ∧ t.extBranch = s.extBranch

/-- The output stream and the input channel are as before. -/
def SameIo (s t : State) : Prop := t.output = s.output ∧ t.inputs = s.inputs

/-- From `s` to `t` exactly one register write of `v` to `x[rd]` and the pc's move to `target`: the frame of every
instruction that writes a register and nothing else. -/
def WritesReg (rd : Reg) (v target : Word) (s t : State) : Prop :=
  t.getReg rd = v ∧ SameRegsExcept rd s t ∧ t.pc = target ∧ SameMemory s t ∧ SameControl s t ∧ SameIo s t

/-- From `s` to `t` only the pc moves, to `target`. -/
def MovesPc (target : Word) (s t : State) : Prop :=
  t.pc = target ∧ SameRegs s t ∧ SameMemory s t ∧ SameControl s t ∧ SameIo s t

/-- From `s` to `t` the machine enters HALTED with the record (`c`, pc, `hword`, `haddr`) and nothing else changes
(60_exceptions.md rule R282). -/
def EntersHalted (c : Cause) (hword haddr : Word) (s t : State) : Prop :=
  t.running = false ∧ t.haltRec = ⟨c.code, s.pc, hword, haddr⟩ ∧ t.pc = s.pc ∧ t.extBranch = s.extBranch ∧
    SameRegs s t ∧ SameMemory s t ∧ SameIo s t

/-- The register an instruction writes, if any (10_state.md rule R25). -/
def destReg : Instr → Option Reg
  | .add rd _ _ | .sub rd _ _ | .sll rd _ _ | .xor rd _ _ | .srl rd _ _ | .sra rd _ _ | .or rd _ _ | .and rd _ _ => some rd
  | .addi rd _ _ | .xori rd _ _ | .ori rd _ _ | .andi rd _ _ | .slli rd _ _ | .srli rd _ _ | .srai rd _ _ => some rd
  | .lw rd _ _ | .jal rd _ | .input rd => some rd
  | .sw .. | .beq .. | .bne .. | .blt .. | .bge .. | .bltu .. | .bgeu .. | .print _ | .halt => none

/-- The registers an instruction reads (10_state.md rule R25). -/
def srcRegs : Instr → List Reg
  | .add _ rs1 rs2 | .sub _ rs1 rs2 | .sll _ rs1 rs2 | .xor _ rs1 rs2 => [rs1, rs2]
  | .srl _ rs1 rs2 | .sra _ rs1 rs2 | .or _ rs1 rs2 | .and _ rs1 rs2 => [rs1, rs2]
  | .addi _ rs1 _ | .xori _ rs1 _ | .ori _ rs1 _ | .andi _ rs1 _ | .slli _ rs1 _ | .srli _ rs1 _ | .srai _ rs1 _ => [rs1]
  | .lw _ rs1 _ => [rs1]
  | .sw rs1 rs2 _ => [rs1, rs2]
  | .beq rs1 rs2 _ | .bne rs1 rs2 _ | .blt rs1 rs2 _ | .bge rs1 rs2 _ | .bltu rs1 rs2 _ | .bgeu rs1 rs2 _ => [rs1, rs2]
  | .print rd => [rd]
  | .jal .. | .input _ | .halt => []

/-- The condition under which a cause's code, with the word and the address the halt record then holds, applies to the
step of `s` (60_exceptions.md rule R281, row by row; R284). It speaks of `s` alone. -/
def CauseApplies (s : State) (code : BitVec 3) (hword haddr : Word) : Prop :=
  (code = 0 ∧ hword = 0 ∧ haddr = 0 ∧ ∃ w, fetch s = some w ∧ decode w = .instr .halt) ∨
  (code = 1 ∧ haddr = 0 ∧ fetch s = some hword ∧ decode hword = .illegal .unknownOpcode) ∨
  (code = 2 ∧ haddr = 0 ∧ fetch s = some hword ∧ decode hword = .illegal .illegalFunct) ∨
  (code = 3 ∧ haddr = 0 ∧ fetch s = some hword ∧ s.extBranch = .reject ∧
    ∃ c rs1 rs2 off, decodeVariant hword = .branch c rs1 rs2 off ∧ c ≠ .eq ∧ c ≠ .ne) ∨
  (code = 4 ∧ hword = 0 ∧ haddr = 0 ∧ 65532 < s.pc.toNat) ∨
  (code = 5 ∧ fetch s = some hword ∧ 65532 < haddr.toNat ∧
    ∃ rs1 imm, haddr = s.getReg rs1 + imm ∧
      ((∃ rd, decodeVariant hword = .lw rd rs1 imm) ∨ ∃ rs2, decodeVariant hword = .sw rs1 rs2 imm))

/-! ### Words that are no instruction -/

/-- The opcode is in the map of 30_encoding.md rule R97 (eight values besides the zero word). -/
def OpcodeInMap (op : BitVec 7) : Prop :=
  op = 0x33 ∨ op = 0x13 ∨ op = 0x03 ∨ op = 0x23 ∨ op = 0x63 ∨ op = 0x6F ∨ op = 0x0B ∨ op = 0x0C

/-- The (funct3, funct7) pair of a register-register instruction (R98). -/
def ListedPair (f3 : BitVec 3) (f7 : BitVec 7) : Prop :=
  (f7 = 0x00 ∧ (f3 = 0 ∨ f3 = 1 ∨ f3 = 4 ∨ f3 = 5 ∨ f3 = 6 ∨ f3 = 7)) ∨ (f7 = 0x20 ∧ (f3 = 0 ∨ f3 = 5))

/-- The list of 30_encoding.md rule R104, point by point. `upper` is bits 31:12. -/
def IllegalPattern (op : BitVec 7) (f3 : BitVec 3) (f7 : BitVec 7) (upper : BitVec 20) : Prop :=
  (op = 0x33 ∧ ¬ ListedPair f3 f7) ∨
  (op = 0x13 ∧ (f3 = 2 ∨ f3 = 3)) ∨
  (op = 0x13 ∧ f3 = 1 ∧ f7 ≠ 0x00) ∨
  (op = 0x13 ∧ f3 = 5 ∧ f7 ≠ 0x00 ∧ f7 ≠ 0x20) ∨
  ((op = 0x03 ∨ op = 0x23) ∧ f3 ≠ 2) ∨
  (op = 0x63 ∧ (f3 = 2 ∨ f3 = 3)) ∨
  ((op = 0x0B ∨ op = 0x0C) ∧ upper ≠ 0)

/-! ### The forms of an instruction's rule: its encoding (match, mask and fields) and its effect -/

/-- A register-register rule: the row's words decode to it, and it writes `f x[rs1] x[rs2]`. -/
def RegRegRule (mk : Reg → Reg → Reg → Instr) (mat : Word) (f : Word → Word → Word) : Prop :=
  (∀ w : Word, w &&& 0xFE00707F = mat → decode w = .instr (mk (fieldRd w) (fieldRs1 w) (fieldRs2 w))) ∧
    ∀ rd rs1 rs2 s, ∃ t, exec (mk rd rs1 rs2) s = .next t ∧
      WritesReg rd (f (s.getReg rs1) (s.getReg rs2)) (s.pc + 4) s t

/-- A register-immediate rule: it writes `f x[rs1] (sext_12 imm)`. -/
def RegImmRule (mk : Reg → Reg → BitVec 12 → Instr) (mat : Word) (f : Word → Word → Word) : Prop :=
  (∀ w : Word, w &&& 0x0000707F = mat →
      decode w = .instr (mk (fieldRd w) (fieldRs1 w) (w.extractLsb' 20 12))) ∧
    ∀ rd rs1 imm s, ∃ t, exec (mk rd rs1 imm) s = .next t ∧
      WritesReg rd (f (s.getReg rs1) (imm.signExtend 32)) (s.pc + 4) s t

/-- A shift-immediate rule: it writes `f x[rs1] shamt`, the shift amount an integer 0..31 from bits 24:20. -/
def ShiftImmRule (mk : Reg → Reg → BitVec 5 → Instr) (mat : Word) (f : Word → Nat → Word) : Prop :=
  (∀ w : Word, w &&& 0xFE00707F = mat →
      decode w = .instr (mk (fieldRd w) (fieldRs1 w) (w.extractLsb' 20 5))) ∧
    ∀ rd rs1 sh s, ∃ t, exec (mk rd rs1 sh) s = .next t ∧
      WritesReg rd (f (s.getReg rs1) sh.toNat) (s.pc + 4) s t

/-- The encoding of a branch: the row's words decode to it and encode back to themselves. -/
def BranchEncoding (mk : Reg → Reg → BitVec 13 → Instr) (mat : Word) : Prop :=
  ∀ w : Word, w &&& 0x0000707F = mat →
    decode w = .instr (mk (fieldRs1 w) (fieldRs2 w) (fieldImmB w)) ∧
      encode (mk (fieldRs1 w) (fieldRs2 w) (fieldImmB w)) = w

/-- A branch taken exactly when `taken x[rs1] x[rs2]`: the pc moves to `pc + sext_13 off` or to `pc + 4` and nothing
else changes. -/
def BranchEffect (mk : Reg → Reg → BitVec 13 → Instr) (taken : Word → Word → Prop) (s : State) : Prop :=
  ∀ rs1 rs2 off,
    (taken (s.getReg rs1) (s.getReg rs2) →
      ∃ t, exec (mk rs1 rs2 off) s = .next t ∧ MovesPc (s.pc + off.signExtend 32) s t) ∧
    (¬ taken (s.getReg rs1) (s.getReg rs2) →
      ∃ t, exec (mk rs1 rs2 off) s = .next t ∧ MovesPc (s.pc + 4) s t)

/-- A branch governed by EXT_BRANCH: UnsupportedInstruction (cause 3) under `reject`, the comparison under `rv32i`. -/
def ExtBranchRule (mk : Reg → Reg → BitVec 13 → Instr) (mat : Word) (taken : Word → Word → Prop) : Prop :=
  BranchEncoding mk mat ∧
    (∀ s, s.extBranch = .reject → ∀ rs1 rs2 off, ∃ t, exec (mk rs1 rs2 off) s = .next t ∧
      EntersHalted .unsupportedInstruction (encode (mk rs1 rs2 off)) 0 s t) ∧
    ∀ s, s.extBranch = .rv32i → BranchEffect mk taken s

/-- The word with its four bytes in reverse order. -/
def byteReverse (v : Word) : Word :=
  v.extractLsb' 0 8 ++ v.extractLsb' 8 8 ++ v.extractLsb' 16 8 ++ v.extractLsb' 24 8

/-- What the machine's state shows of the reason it stands in HALTED with a record: the record names the pc, and the
fetch at that pc, its decoding and the registers give exactly that cause, word and address (60_exceptions.md rules
R281 to R283). -/
def HaltExplained (s : State) : Prop :=
  s.haltRec.hpc = s.pc ∧
    match fetch s with
    | none => s.haltRec = ⟨Cause.fetchOutOfRange.code, s.pc, 0, 0⟩
    | some w =>
      match decode w with
      | .illegal k => s.haltRec = ⟨(causeOfIllegal k).code, s.pc, w, 0⟩
      | .instr .halt => s.haltRec = ⟨Cause.halt.code, s.pc, 0, 0⟩
      | .instr (.blt ..) | .instr (.bge ..) | .instr (.bltu ..) | .instr (.bgeu ..) =>
        s.extBranch = .reject ∧ s.haltRec = ⟨Cause.unsupportedInstruction.code, s.pc, w, 0⟩
      | .instr (.lw _ rs1 imm) | .instr (.sw rs1 _ imm) =>
        ¬ InRange (effectiveAddr s rs1 imm) 4 ∧
          s.haltRec = ⟨Cause.dataOutOfRange.code, s.pc, w, effectiveAddr s rs1 imm⟩
      | .instr _ => False

/-- The machine's invariant: memory is canonical; in RUNNING the halt record holds its reset value (10_state.md rule
R31); in HALTED the state explains the record. -/
def Inv (s : State) : Prop :=
  s.mem.wf = true ∧
    (s.running = true → s.haltRec = HaltRecord.zero) ∧
    (s.running = false → HaltExplained s)

/-- What holds of a machine in the host's hands (60_exceptions.md rule R292, 70_reset_and_hazards.md rules R320 to
R322): the machine's own invariant; until the first load it is as reset left it, and until it is told to run it
differs from that in memory alone. -/
def SessionInv (x : Session) : Prop :=
  Inv x.machine ∧
    (x.phase = .afterReset → x.machine = x.machine.resetAll) ∧
    (x.phase = .loaded → { x.machine with mem := [] } = x.machine.resetAll)

end Sys2Proof.Machine
end

