-- ==== Sys2Proof/Certificates/Slice0/Obligations.lean ====
section
/-! DEFINITION. The statements for the provers. -/

open Sys2Proof Sys2Proof.Machine

/-! ### Reset, load and the step -/

/-- 10_state.md R40 to R43 (and the first sentence of R44): what reset leaves. -/
def Obligations.ResetValues : Prop :=
  (∀ r, State.reset.getReg r = 0) ∧ State.reset.pc = 0 ∧ State.reset.running = true ∧
    State.reset.haltRec = ⟨0, 0, 0, 0⟩ ∧ (∀ a, State.reset.mem.readByte a = 0) ∧ State.reset.output = []

/-- 70_reset_and_hazards.md R320: the host's reset sets every piece of state in any state, HALTED and a held `input`
included; no step leaves HALTED. -/
def Obligations.HostResetFromAnyState : Prop :=
  (∀ x : Session, hostMove .reset x = some (hostReset x) ∧ (∀ r, (hostReset x).machine.getReg r = 0) ∧
    (hostReset x).machine.pc = 0 ∧ (hostReset x).machine.running = true ∧
    (hostReset x).machine.haltRec = ⟨0, 0, 0, 0⟩ ∧ (∀ a, (hostReset x).machine.mem.readByte a = 0) ∧
    (hostReset x).machine.output = []) ∧
  ∀ s t, s.running = false → step s = .next t → t.running = false

/-- 70_reset_and_hazards.md R321: `load` refuses an image longer than 65536 bytes, and the machine is then not
started; any other image is, after reset, copied from offset 0, and after the start-up sequence the bytes it does not
cover are 0. -/
def Obligations.LoadCopiesImage : Prop :=
  ∀ (bytes : List Byte) (x : Session),
    (65536 < bytes.length → hostLoad bytes x = none ∧ startUp bytes x = none) ∧
    (bytes.length ≤ 65536 →
      (x.phase = .afterReset → ∃ y, hostLoad bytes x = some y ∧ y.phase = .loaded ∧
        (∀ i (h : i < bytes.length), y.machine.mem.readByte i = bytes[i]) ∧
        (∀ a, bytes.length ≤ a → y.machine.mem.readByte a = x.machine.mem.readByte a) ∧
        SameRegs x.machine y.machine ∧ y.machine.pc = x.machine.pc ∧ SameControl x.machine y.machine ∧
        SameIo x.machine y.machine) ∧
      ∃ y, startUp bytes x = some y ∧ (∀ i (h : i < bytes.length), y.machine.mem.readByte i = bytes[i]) ∧
        ∀ a, bytes.length ≤ a → y.machine.mem.readByte a = 0)

/-- A second load before the run is taken, copies its bytes over the first image, and leaves later bytes and all other
state as they were. That it is possible at all is the model's choice (log entry 16). -/
def Obligations.SecondLoadCopiesOver : Prop :=
  ∀ (bytes : List Byte) (x : Session), x.phase = .loaded → bytes.length ≤ 65536 →
    ∃ y, hostLoad bytes x = some y ∧ y.phase = .loaded ∧
      (∀ i (h : i < bytes.length), y.machine.mem.readByte i = bytes[i]) ∧
      (∀ a, bytes.length ≤ a → y.machine.mem.readByte a = x.machine.mem.readByte a) ∧
      SameRegs x.machine y.machine ∧ y.machine.pc = x.machine.pc ∧ SameControl x.machine y.machine ∧
      SameIo x.machine y.machine

/-- 60_exceptions.md R292: what the host can do, and when: reset at any time; load after reset and before the machine
is started, of at most 65536 bytes; run after load; supply input while an `input` is held; read output and status at
any time; and the block's own steps from run until HALTED, none while an `input` is held. How the host's progress is
kept beside the machine, that a second load before the run is taken, and that a second run of a started machine is
refused, are the model's choices (log entry 16). -/
def Obligations.HostActsOnlyWhenAllowed : Prop :=
  ∀ x : Session,
    (hostMove .reset x = some ⟨x.machine.resetAll, .afterReset⟩) ∧
    (∀ bytes, ((hostMove (.load bytes) x).isSome = true ↔
        (x.phase = .afterReset ∨ x.phase = .loaded) ∧ bytes.length ≤ 65536) ∧
      ∀ y, hostMove (.load bytes) x = some y → y.phase = .loaded ∧
        y.machine = { x.machine with mem := x.machine.mem.writeBytes 0 bytes }) ∧
    (((hostMove .run x).isSome = true ↔ x.phase = .loaded) ∧
      ∀ y, hostMove .run x = some y → y.phase = .started ∧ y.machine = x.machine) ∧
    (∀ v, ((hostMove (.supplyInput v) x).isSome = true ↔ x.phase = .started ∧ inputHeld x.machine = true) ∧
      ∀ y, hostMove (.supplyInput v) x = some y → y.phase = .started ∧
        ∃ z rd, blockStep y = some z ∧ z.machine.getReg rd = v ∧ SameRegsExcept rd x.machine z.machine ∧
          z.machine.pc = x.machine.pc + 4) ∧
    (readOutput x = x.machine.output ∧ readStatus x = (x.machine.running, x.machine.haltRec)) ∧
    ((blockStep x).isSome = true ↔
      x.phase = .started ∧ x.machine.running = true ∧ inputHeld x.machine = false) ∧
    ∀ y, blockStep x = some y → y.phase = .started ∧ step x.machine = .next y.machine

/-- In a started machine (log entry 16; a second run is refused there by the model's choice) the host has two moves (the last sentence of 60_exceptions.md R292): reset, and a value for
a held `input`, which changes nothing but the input channel (the model's own field, log entry 2). -/
def Obligations.HostHasNoOtherMove : Prop :=
  ∀ (m : HostMove) (x y : Session), x.phase = .started → hostMove m x = some y →
    (m = .reset ∧ y = hostReset x) ∨
    ∃ v, m = .supplyInput v ∧ inputHeld x.machine = true ∧ y.phase = .started ∧ y.machine.inputs = [v] ∧
      y.machine.output = x.machine.output ∧ y.machine.pc = x.machine.pc ∧ SameRegs x.machine y.machine ∧
      SameMemory x.machine y.machine ∧ SameControl x.machine y.machine

/-- The invariant of the machine in the host's hands (log entry 16): reset establishes it, and every move of the host and every step of the block keep it. -/
def Obligations.SessionKeepsInvariant : Prop :=
  (∀ x, SessionInv (hostReset x)) ∧
    ∀ x y, SessionInv x → ((∃ m, hostMove m x = some y) ∨ blockStep x = some y) → SessionInv y

/-- 20_memory.md R55, 70_reset_and_hazards.md R322: after the start-up sequence the pc is 0 and the machine RUNNING,
and an image word loaded at offset 4k is fetched back unchanged when pc = 4k. -/
def Obligations.ImageWordFetchedUnchanged : Prop :=
  ∀ (x : Session) (ws : List Word), 4 * ws.length ≤ 65536 →
    ∃ y, startUp (ws.flatMap bytesLe) x = some y ∧ y.phase = .started ∧ y.machine.pc = 0 ∧
      y.machine.running = true ∧ y.machine.extBranch = x.machine.extBranch ∧
      ∀ k (h : k < ws.length), fetch (y.machine.setPc (BitVec.ofNat 32 (4 * k))) = some ws[k]

/-- 30_encoding.md R110: when the four bytes at the pc decode to an instruction, the step of a running machine is
that instruction's meaning, with nothing around it. -/
def Obligations.StepRunsDecodedInstruction : Prop :=
  ∀ (s : State) (i : Instr), s.running = true → s.pc.toNat ≤ 65532 →
    decode (s.mem.readByte (s.pc.toNat + 3) ++ s.mem.readByte (s.pc.toNat + 2) ++
      s.mem.readByte (s.pc.toNat + 1) ++ s.mem.readByte s.pc.toNat) = .instr i →
    step s = exec i s

/-- 20_memory.md R55, R60: a fetch reads the four bytes at the pc little-endian, at any alignment, exactly when they
are inside memory. -/
def Obligations.FetchIsLittleEndianAtAnyAlignment : Prop :=
  ∀ s : State,
    (s.pc.toNat ≤ 65532 → fetch s = some (s.mem.readByte (s.pc.toNat + 3) ++ s.mem.readByte (s.pc.toNat + 2) ++
      s.mem.readByte (s.pc.toNat + 1) ++ s.mem.readByte s.pc.toNat)) ∧
    (65532 < s.pc.toNat → fetch s = none)

/-- 20_memory.md R61: a fetch outside memory raises FetchOutOfRange, cause 4, with hpc = pc, hword = 0, haddr = 0. -/
def Obligations.FetchOutsideMemoryHalts : Prop :=
  ∀ s : State, s.running = true → 65532 < s.pc.toNat →
    ∃ t, step s = .next t ∧ EntersHalted .fetchOutOfRange 0 0 s t ∧ t.haltRec = ⟨4, s.pc, 0, 0⟩

/-- 60_exceptions.md R286: a machine in HALTED stays exactly as it is, however many steps are asked of it. That it
answers each with an unchanged next state is the model's form of taking no step (log entry 1). -/
def Obligations.HaltedIsFinal : Prop :=
  ∀ s : State, s.running = false → ∀ k, Sys2Proof.core.run k s = .next s

/-! ### Decoding and encoding -/

/-- Words written out from the spec's encodings (95_test_vectors.md section 2). -/
def Obligations.SampleWordsDecode : Prop :=
  decode 0x00000000 = .instr .halt ∧
  decode 0x002081B3 = .instr (.add 3 1 2) ∧
  decode 0xFFF00093 = .instr (.addi 1 0 (-1)) ∧
  decode 0x4040D193 = .instr (.srai 3 1 4) ∧
  decode 0x80002183 = .instr (.lw 3 0 (-2048)) ∧
  decode 0xFE202FA3 = .instr (.sw 0 2 (-1)) ∧
  decode 0xFE000EE3 = .instr (.beq 0 0 (-4)) ∧
  decode 0x000000EF = .instr (.jal 1 0) ∧
  decode 0x00000F8B = .instr (.print 31) ∧
  decode 0x0000010C = .instr (.input 2)

/-- Decode and encode agree: every well-formed instruction, with every operand at every value the encoding admits,
is read back from its word. -/
def Obligations.DecodeOfEncode : Prop :=
  ∀ i : Instr, WellFormed i → decode (encode i) = .instr i

/-- The other direction: a word that decodes to an instruction is that instruction's only word, and the instruction
is well formed. -/
def Obligations.EncodeOfDecode : Prop :=
  ∀ (w : Word) (i : Instr), decode w = .instr i → WellFormed i ∧ encode i = w

/-- 30_encoding.md R103: exactly the words with an opcode outside the map, or opcode 0 and another bit set, are
UnknownOpcode, and executing one halts with cause 1. -/
def Obligations.UnknownOpcodeWords : Prop :=
  (∀ w : Word, decode w = .illegal .unknownOpcode ↔
    (w.extractLsb' 0 7 ≠ 0 ∧ ¬ OpcodeInMap (w.extractLsb' 0 7)) ∨ (w.extractLsb' 0 7 = 0 ∧ w ≠ 0)) ∧
  ∀ (s : State) (w : Word), s.running = true → fetch s = some w → decode w = .illegal .unknownOpcode →
    ∃ t, step s = .next t ∧ EntersHalted .unknownOpcode w 0 s t ∧ t.haltRec = ⟨1, s.pc, w, 0⟩

/-- 30_encoding.md R104: exactly the listed words are IllegalFunct, and executing one halts with cause 2. -/
def Obligations.IllegalFunctWords : Prop :=
  (∀ w : Word, decode w = .illegal .illegalFunct ↔
    IllegalPattern (w.extractLsb' 0 7) (w.extractLsb' 12 3) (w.extractLsb' 25 7) (w.extractLsb' 12 20)) ∧
  ∀ (s : State) (w : Word), s.running = true → fetch s = some w → decode w = .illegal .illegalFunct →
    ∃ t, step s = .next t ∧ EntersHalted .illegalFunct w 0 s t ∧ t.haltRec = ⟨2, s.pc, w, 0⟩

/-- 30_encoding.md R90, R91, R92: the three immediates are the signed values of their bits, with their ranges. -/
def Obligations.ImmediatesAreSignExtended : Prop :=
  ∀ w : Word,
    ((decoderOutputs w).immI.toInt = (w.extractLsb' 20 12).toInt ∧
      -2048 ≤ (decoderOutputs w).immI.toInt ∧ (decoderOutputs w).immI.toInt ≤ 2047) ∧
    ((decoderOutputs w).immS.toInt = (w.extractLsb' 25 7 ++ w.extractLsb' 7 5).toInt ∧
      -2048 ≤ (decoderOutputs w).immS.toInt ∧ (decoderOutputs w).immS.toInt ≤ 2047) ∧
    ((decoderOutputs w).immB.toInt =
        2 * (w.extractLsb' 31 1 ++ w.extractLsb' 7 1 ++ w.extractLsb' 25 6 ++ w.extractLsb' 8 4).toInt ∧
      -4096 ≤ (decoderOutputs w).immB.toInt ∧ (decoderOutputs w).immB.toInt ≤ 4094)

/-! ### ALU instructions -/

/-- 40_alu.md R160 to R167: each register-register instruction's encoding, result and frame. -/
def Obligations.RegisterRegisterResults : Prop :=
  RegRegRule .add 0x00000033 (fun a b => a + b) ∧
  RegRegRule .sub 0x40000033 (fun a b => a - b) ∧
  RegRegRule .sll 0x00001033 (fun a b => a <<< (b.toNat % 32)) ∧
  RegRegRule .xor 0x00004033 (fun a b => a ^^^ b) ∧
  RegRegRule .srl 0x00005033 (fun a b => a >>> (b.toNat % 32)) ∧
  RegRegRule .sra 0x40005033 (fun a b => a.sshiftRight (b.toNat % 32)) ∧
  RegRegRule .or 0x00006033 (fun a b => a ||| b) ∧
  RegRegRule .and 0x00007033 (fun a b => a &&& b)

/-- 40_alu.md R170 to R173: each register-immediate instruction's encoding, result and frame. -/
def Obligations.RegisterImmediateResults : Prop :=
  RegImmRule .addi 0x00000013 (fun a b => a + b) ∧
  RegImmRule .xori 0x00004013 (fun a b => a ^^^ b) ∧
  RegImmRule .ori 0x00006013 (fun a b => a ||| b) ∧
  RegImmRule .andi 0x00007013 (fun a b => a &&& b)

/-- 40_alu.md R174 to R176: each shift-immediate instruction's encoding, result and frame; a word of `slli`'s funct3
with other bits 31:25 is IllegalFunct (R174), and `srai`'s imm_I is 0x400 + shamt (R176). -/
def Obligations.ShiftImmediateResults : Prop :=
  ShiftImmRule .slli 0x00001013 (fun a n => a <<< n) ∧
  ShiftImmRule .srli 0x00005013 (fun a n => a >>> n) ∧
  ShiftImmRule .srai 0x40005013 (fun a n => a.sshiftRight n) ∧
  (∀ w : Word, fieldOpcode w = 0x13 → fieldFunct3 w = 1 → fieldFunct7 w ≠ 0x00 → decode w = .illegal .illegalFunct) ∧
  ∀ sh : BitVec 5, immShift 0x20 sh = 0x400 + sh.zeroExtend 32

/-- 40_alu.md R152: a shift depends only on the low 5 bits of its second operand; a shift-immediate's amount is its
bits 24:20, whatever bits 31:25 add to imm_I. -/
def Obligations.ShiftsUseLowFiveBits : Prop :=
  (∀ a b : Word, alu .sll a b = a <<< (b.toNat % 32) ∧ alu .srl a b = a >>> (b.toNat % 32) ∧
    alu .sra a b = a.sshiftRight (b.toNat % 32)) ∧
  ∀ (f7 : BitVec 7) (sh : BitVec 5), (immShift f7 sh).toNat % 32 = sh.toNat

/-- The sign fill of `sra` on exact integers: the result is the signed value divided by 2^n, rounded down. -/
def Obligations.ArithmeticShiftDividesSignedValue : Prop :=
  ∀ rd rs1 rs2 s, ∃ t, exec (.sra rd rs1 rs2) s = .next t ∧
    (t.getReg rd).toInt = (s.getReg rs1).toInt / 2 ^ ((s.getReg rs2).toNat % 32)

/-- 10_state.md R21: register 0 is ordinary: it reads the value last written, `addi x0, x0, 5` leaves 5 in it when it
held 0, and a jump with rd = 0 writes its link value there. -/
def Obligations.RegisterZeroIsOrdinary : Prop :=
  (∀ (s : State) (v : Word), (s.setReg 0 v).getReg 0 = v) ∧
  (∀ s : State, s.getReg 0 = 0 → ∃ t, exec (.addi 0 0 5) s = .next t ∧ t.getReg 0 = 5) ∧
  ∀ (s : State) (bits : BitVec 20), ∃ t, exec (.jal 0 bits) s = .next t ∧ t.getReg 0 = s.pc + 4

/-! ### Loads and stores -/

/-- 41_load_store.md R201: `lw`, its encoding, its big-endian result at any alignment, and its fault. -/
def Obligations.LoadWordResult : Prop :=
  (∀ w : Word, w &&& 0x0000707F = 0x00002003 →
    decode w = .instr (.lw (fieldRd w) (fieldRs1 w) (w.extractLsb' 20 12)) ∧
      encode (.lw (fieldRd w) (fieldRs1 w) (w.extractLsb' 20 12)) = w) ∧
  ∀ (rd rs1 : Reg) (imm : BitVec 12) (s : State), ∀ ea : Word, ea = s.getReg rs1 + imm.signExtend 32 →
    (ea.toNat ≤ 65532 → ∃ t, exec (.lw rd rs1 imm) s = .next t ∧
      WritesReg rd (s.mem.readByte ea.toNat ++ s.mem.readByte (ea.toNat + 1) ++
        s.mem.readByte (ea.toNat + 2) ++ s.mem.readByte (ea.toNat + 3)) (s.pc + 4) s t) ∧
    (65532 < ea.toNat → ∃ t, exec (.lw rd rs1 imm) s = .next t ∧
      EntersHalted .dataOutOfRange (encode (.lw rd rs1 imm)) ea s t)

/-- 41_load_store.md R202: `sw`, its encoding, the four bytes it stores most significant first, its frame, and its
fault. -/
def Obligations.StoreWordEffect : Prop :=
  (∀ w : Word, w &&& 0x0000707F = 0x00002023 →
    decode w = .instr (.sw (fieldRs1 w) (fieldRs2 w) (w.extractLsb' 25 7 ++ w.extractLsb' 7 5)) ∧
      encode (.sw (fieldRs1 w) (fieldRs2 w) (w.extractLsb' 25 7 ++ w.extractLsb' 7 5)) = w) ∧
  ∀ (rs1 rs2 : Reg) (imm : BitVec 12) (s : State), ∀ ea : Word, ea = s.getReg rs1 + imm.signExtend 32 →
    (ea.toNat ≤ 65532 → ∃ t, exec (.sw rs1 rs2 imm) s = .next t ∧
      t.mem.readByte ea.toNat = (s.getReg rs2).extractLsb' 24 8 ∧
      t.mem.readByte (ea.toNat + 1) = (s.getReg rs2).extractLsb' 16 8 ∧
      t.mem.readByte (ea.toNat + 2) = (s.getReg rs2).extractLsb' 8 8 ∧
      t.mem.readByte (ea.toNat + 3) = (s.getReg rs2).extractLsb' 0 8 ∧
      (∀ a, a < ea.toNat ∨ ea.toNat + 4 ≤ a → t.mem.readByte a = s.mem.readByte a) ∧
      t.pc = s.pc + 4 ∧ SameRegs s t ∧ SameControl s t ∧ SameIo s t) ∧
    (65532 < ea.toNat → ∃ t, exec (.sw rs1 rs2 imm) s = .next t ∧
      EntersHalted .dataOutOfRange (encode (.sw rs1 rs2 imm)) ea s t)

/-- 20_memory.md R62: the step of a `lw` or `sw` whose effective address is outside memory raises DataOutOfRange,
cause 5, with hpc = pc, hword the fetched word and haddr = ea; it changes no register and no memory byte. -/
def Obligations.DataOutsideMemoryHalts : Prop :=
  ∀ (s : State) (w : Word) (rd rs1 rs2 : Reg) (imm : BitVec 12), s.running = true → fetch s = some w →
    (decode w = .instr (.lw rd rs1 imm) ∨ decode w = .instr (.sw rs1 rs2 imm)) →
    65532 < (s.getReg rs1 + imm.signExtend 32).toNat →
    ∃ t, step s = .next t ∧ EntersHalted .dataOutOfRange w (s.getReg rs1 + imm.signExtend 32) s t ∧
      t.haltRec = ⟨5, s.pc, w, s.getReg rs1 + imm.signExtend 32⟩

/-- 41_load_store.md R203: `sw` of a value followed by `lw` at the same effective address returns it unchanged. -/
def Obligations.StoreThenLoadReturnsValue : Prop :=
  ∀ (s : State) (rs1 rs2 rd base : Reg) (imm imm' : BitVec 12),
    effectiveAddr s rs1 imm = effectiveAddr s base imm' → (effectiveAddr s rs1 imm).toNat ≤ 65532 →
    ∃ t u, exec (.sw rs1 rs2 imm) s = .next t ∧ exec (.lw rd base imm') t = .next u ∧
      u.getReg rd = s.getReg rs2

/-- 20_memory.md R58: a word written by a store is seen byte-reversed by a fetch, and a word as a fetch sees it is
read byte-reversed by a load. -/
def Obligations.ByteOrdersDisagree : Prop :=
  ∀ (s : State) (a v : Word), a.toNat ≤ 65532 →
    le32 ((s.memWrite a (bytesBe v)).memRead a 4) = byteReverse v ∧
    be32 (s.memRead a 4) = byteReverse (le32 (s.memRead a 4)) ∧
    be32 (bytesBe v) = v

/-- 20_memory.md R69: the fetch after a `sw` sees the stored bytes at once, byte-reversed, its own bytes included. -/
def Obligations.StoreSeenByNextFetch : Prop :=
  ∀ (s : State) (rs1 rs2 : Reg) (imm : BitVec 12), (effectiveAddr s rs1 imm).toNat ≤ 65532 →
    ∃ t, exec (.sw rs1 rs2 imm) s = .next t ∧
      fetch (t.setPc (effectiveAddr s rs1 imm)) = some (byteReverse (s.getReg rs2))

/-! ### Control transfer -/

/-- 42_control.md R221, R222: `beq` and `bne`, their encoding, target and frame. -/
def Obligations.BeqBneTargets : Prop :=
  (BranchEncoding .beq 0x00000063 ∧ ∀ s, BranchEffect .beq (fun a b => a = b) s) ∧
  (BranchEncoding .bne 0x00001063 ∧ ∀ s, BranchEffect .bne (fun a b => a ≠ b) s)

/-- 42_control.md R223 to R226: the four branches EXT_BRANCH governs, under both of its values. -/
def Obligations.ExtBranchesFollowParameter : Prop :=
  ExtBranchRule .blt 0x00004063 (fun a b => a.toInt < b.toInt) ∧
  ExtBranchRule .bge 0x00005063 (fun a b => a.toInt ≥ b.toInt) ∧
  ExtBranchRule .bltu 0x00006063 (fun a b => a.toNat < b.toNat) ∧
  ExtBranchRule .bgeu 0x00007063 (fun a b => a.toNat ≥ b.toNat)

/-- 42_control.md R227: `jal`, with the OPEN displacement of the instruction's own word. -/
def Obligations.JumpLinksAndMoves : Prop :=
  ∀ w : Word, w &&& 0x0000007F = 0x0000006F →
    decode w = .instr (.jal (fieldRd w) (w.extractLsb' 12 20)) ∧
      ∀ s, ∃ t, exec (.jal (fieldRd w) (w.extractLsb' 12 20)) s = .next t ∧
        WritesReg (fieldRd w) (s.pc + 4) (s.pc + Config.jalOffset w) s t

/-- Only branches and the jump move the pc anywhere but to pc + 4, and there are no delay slots: the pc after the
step is the target itself. -/
def Obligations.OnlyControlTransfersLeaveSequence : Prop :=
  ∀ s t : State, step s = .next t → t.pc ≠ s.pc → t.pc ≠ s.pc + 4 →
    ∃ w, fetch s = some w ∧
      ((∃ c rs1 rs2 off, decodeVariant w = .branch c rs1 rs2 off ∧
          condHolds c (s.getReg rs1) (s.getReg rs2) = true ∧ t.pc = s.pc + off) ∨
        (∃ rd off, decodeVariant w = .jal rd off ∧ t.pc = s.pc + off))

/-! ### Halt and host I/O -/

/-- 43_system_io.md R250: only the zero word is `halt`; it enters HALTED with cause 0 and hpc = pc and changes nothing
else. -/
def Obligations.HaltStopsMachine : Prop :=
  (∀ w : Word, decode w = .instr .halt ↔ w = 0) ∧
  ∀ s, ∃ t, exec .halt s = .next t ∧ EntersHalted .halt 0 0 s t ∧ t.haltRec = ⟨0, s.pc, 0, 0⟩

/-- 43_system_io.md R251: `print` appends one record and advances; the host's text of a record. -/
def Obligations.PrintEmitsRegister : Prop :=
  (∀ w : Word, w &&& 0xFFFFF07F = 0x0000000B → decode w = .instr (.print (fieldRd w))) ∧
  (∀ (rd : Reg) (s : State), ∃ t, exec (.print rd) s = .next t ∧
    t.output = s.output ++ [.print rd (s.getReg rd)] ∧ t.pc = s.pc + 4 ∧ t.inputs = s.inputs ∧
    SameRegs s t ∧ SameMemory s t ∧ SameControl s t) ∧
  ∀ (i : Reg) (v : Word),
    renderPrint i v = "x" ++ toString i.toNat ++ " = " ++ toString v.toInt ++ "\n"

/-- `input` completes with the value the host supplies, whatever it is (43_system_io.md section 2). That the prompt
record appears with the step's other writes is the model's reading (log entry 5), and the channel is the model's own
field (log entry 2). -/
def Obligations.InputTakesSuppliedValue : Prop :=
  (∀ w : Word, w &&& 0xFFFFF07F = 0x0000000C → decode w = .instr (.input (fieldRd w))) ∧
  ∀ (rd : Reg) (v : Word) (rest : List Word) (s : State), s.inputs = v :: rest →
    ∃ t, exec (.input rd) s = .next t ∧ t.getReg rd = v ∧ SameRegsExcept rd s t ∧ t.pc = s.pc + 4 ∧
      t.output = s.output ++ [.inputPrompt rd] ∧ t.inputs = rest ∧ SameMemory s t ∧ SameControl s t

/-- A held `input` leaves the whole state as it is, for any number of steps, until the host supplies a value; then its
step completes (60_exceptions.md sections 4 and 5). The unchanged next state is the model's form of the hold (log
entry 1). -/
def Obligations.HeldInputWaitsThenCompletes : Prop :=
  ∀ s : State, inputHeld s = true →
    (∀ k, Sys2Proof.core.run k s = .next s) ∧
    ∀ v, ∃ w rd y u, fetch s = some w ∧ decode w = .instr (.input rd) ∧
      supplyInput v ⟨s, .started⟩ = some y ∧ step y.machine = .next u ∧ u.getReg rd = v ∧ SameRegsExcept rd s u ∧
      u.pc = s.pc + 4 ∧ u.output = s.output ++ [.inputPrompt rd] ∧ u.inputs = [] ∧ SameMemory s u

/-- Only `print` and `input` extend the output stream, by one record each, and no step takes a record back. -/
def Obligations.OutputOnlyAppended : Prop :=
  ∀ s t : State, step s = .next t →
    t.output = s.output ∨
      (∃ w rd, fetch s = some w ∧ decode w = .instr (.print rd) ∧ t.output = s.output ++ [.print rd (s.getReg rd)]) ∨
      (∃ w rd, fetch s = some w ∧ decode w = .instr (.input rd) ∧ t.output = s.output ++ [.inputPrompt rd])

/-! ### Faults and whole-machine rules -/

/-- 60_exceptions.md R283: faults are precise: a step that enters HALTED changes only the running flag and the halt
record, which names the pc of the instruction. -/
def Obligations.FaultsArePrecise : Prop :=
  ∀ s t : State, s.running = true → step s = .next t → t.running = false →
    t = { s with running := false, haltRec := t.haltRec } ∧ t.haltRec.hpc = s.pc

/-- The causes' conditions are exclusive and complete: a running machine enters HALTED in a step exactly when one of
R281's conditions on the state before the step holds, and the record then is that cause's (60_exceptions.md
sections 2 and 3). -/
def Obligations.HaltExactlyWhenCauseApplies : Prop :=
  ∀ s t : State, s.running = true → step s = .next t →
    (t.running = false ↔ ∃ code hword haddr, CauseApplies s code hword haddr) ∧
    ∀ code hword haddr, CauseApplies s code hword haddr → t.haltRec = ⟨code, s.pc, hword, haddr⟩

/-- No state and no word makes the machine crash, and no instruction is refused: the step of a running machine answers
a next state. In HALTED and at a held `input` the spec takes no step; that the model answers the unchanged next state
there is its own choice (log entry 1). -/
def Obligations.EveryStepAnswersNextState : Prop :=
  ∀ s : State, (∃ t, step s = .next t) ∧
    (s.running = false ∨ inputHeld s = true → step s = .next s)

/-- Every step keeps the invariant: memory canonical, the halt record zero in RUNNING, and in HALTED a record that
the state itself explains. -/
def Obligations.StepKeepsInvariant : Prop :=
  ∀ s t : State, Inv s → step s = .next t → Inv t

/-- The invariant holds after reset. -/
def Obligations.ResetMeetsInvariant : Prop := Inv State.reset

/-- Only a `sw` changes memory, and only the four bytes at its effective address. -/
def Obligations.OnlyStoresChangeMemory : Prop :=
  ∀ (s t : State) (a : Nat), step s = .next t → t.mem.readByte a ≠ s.mem.readByte a →
    ∃ w rs1 rs2 imm, fetch s = some w ∧ decode w = .instr (.sw rs1 rs2 imm) ∧
      (effectiveAddr s rs1 imm).toNat ≤ a ∧ a < (effectiveAddr s rs1 imm).toNat + 4

/-- The registers each instruction writes and reads (10_state.md R25): a register it does not name as destination
keeps its value; a register it neither reads nor writes has no influence on anything else. -/
def Obligations.OnlyNamedRegistersMatter : Prop :=
  ∀ (i : Instr) (s t : State) (r : Reg), exec i s = .next t → destReg i ≠ some r →
    t.getReg r = s.getReg r ∧ (r ∉ srcRegs i → ∀ v, exec i (s.setReg r v) = .next (t.setReg r v))

/-- No step changes the parameter EXT_BRANCH, and a step takes at most one value from the input channel, by `input`
alone. Both fields are the model's own (log entries 2 and 3). -/
def Obligations.ParameterAndChannelFrame : Prop :=
  ∀ s t : State, step s = .next t →
    t.extBranch = s.extBranch ∧
      (t.inputs = s.inputs ∨
        ∃ w rd v, fetch s = some w ∧ decode w = .instr (.input rd) ∧ s.inputs = v :: t.inputs)

/-! ### The assembler (toolchain) -/

/-- 30_encoding.md R122: the address of a label is the byte count of the instruction-bearing lines before it. -/
def Obligations.LabelAddressCountsInstructions : Prop :=
  ∀ (ls : List Asm.Line) (labels : Asm.Labels), Asm.resolveLabels ls = .ok labels →
    ∀ k (h : k < ls.length) name, ls[k].label = some name →
      labels.lookup name = some (4 * ((ls.take k).filter fun l => !l.body.isEmpty).length)

/-- 30_encoding.md R126: a branch to a defined label gets the offset label address minus instruction address, rejected
when odd or out of range, and a branch to an undefined label is an error. -/
def Obligations.BranchOffsetFromLabel : Prop :=
  ∀ (labels : Asm.Labels) (addr : Nat) (t : Asm.Token), Asm.parseInt t = none →
    (labels.lookup t = none → Asm.parseTarget labels addr t = .error .undefinedLabel) ∧
    ∀ target, labels.lookup t = some target →
      ((((target : Int) - addr) % 2 ≠ 0 ∨ (target : Int) - addr < -4096 ∨ 4094 < (target : Int) - addr) →
        Asm.parseTarget labels addr t = .error .branchOffset) ∧
      (((target : Int) - addr) % 2 = 0 → -4096 ≤ (target : Int) - addr → (target : Int) - addr ≤ 4094 →
        ∃ off, Asm.parseTarget labels addr t = .ok off ∧ off.toInt = (target : Int) - addr)

/-- 30_encoding.md R133: every accepted line's instruction is read back from the word it is encoded to. -/
def Obligations.AssembledLineDecodesBack : Prop :=
  ∀ (labels : Asm.Labels) (addr : Nat) (toks : List Asm.Token) (i : Instr),
    Asm.parseInstr labels addr toks = .ok i → decode (encode i) = .instr i

/-- The image holds exactly one 4-byte word per instruction-bearing line, in order: the k-th is the little-endian word
of the instruction that the k-th such line's tokens stand for at address 4k (30_encoding.md section 6). -/
def Obligations.ImageHasOneWordPerLine : Prop :=
  ∀ (text : List Char) (is : List Instr), Asm.assembleInstrs text = .ok is →
    ∃ labels, Asm.resolveLabels (Asm.linesOf text) = .ok labels ∧
      (Asm.imageOf is).length = 4 * ((Asm.linesOf text).filter fun l => !l.body.isEmpty).length ∧
      ∀ k (h : k < ((Asm.linesOf text).filter fun l => !l.body.isEmpty).length),
        ∃ i, Asm.parseInstr labels (4 * k) ((Asm.linesOf text).filter fun l => !l.body.isEmpty)[k].body = .ok i ∧
          is[k]? = some i ∧ ((Asm.imageOf is).drop (4 * k)).take 4 = bytesLe (encode i)
end

