-- ==== Sys2Proof/Laws/Encoding.lean ====
section
/-! SUPPORT. The raw fields of an encoded word, format by format (30_encoding.md rules R81 to R87), and byte order. -/

namespace Sys2Proof

/-! ### R format and shift-immediates -/

section R
variable (f7 : BitVec 7) (rs2 rs1 : Reg) (f3 : BitVec 3) (rd : Reg) (op : BitVec 7)

@[simp] theorem fieldOpcode_encodeR : fieldOpcode (encodeR f7 rs2 rs1 f3 rd op) = op := by
  simp only [fieldOpcode, encodeR]
  apply BitVec.eq_of_getLsbD_eq
  intro i hi
  interval_cases i <;> simp only [BitVec.getLsbD_append, BitVec.getLsbD_extractLsb'] <;> simp

@[simp] theorem fieldRd_encodeR : fieldRd (encodeR f7 rs2 rs1 f3 rd op) = rd := by
  simp only [fieldRd, encodeR]
  apply BitVec.eq_of_getLsbD_eq
  intro i hi
  interval_cases i <;> simp only [BitVec.getLsbD_append, BitVec.getLsbD_extractLsb'] <;> simp

@[simp] theorem fieldFunct3_encodeR : fieldFunct3 (encodeR f7 rs2 rs1 f3 rd op) = f3 := by
  simp only [fieldFunct3, encodeR]
  apply BitVec.eq_of_getLsbD_eq
  intro i hi
  interval_cases i <;> simp only [BitVec.getLsbD_append, BitVec.getLsbD_extractLsb'] <;> simp

@[simp] theorem fieldRs1_encodeR : fieldRs1 (encodeR f7 rs2 rs1 f3 rd op) = rs1 := by
  simp only [fieldRs1, encodeR]
  apply BitVec.eq_of_getLsbD_eq
  intro i hi
  interval_cases i <;> simp only [BitVec.getLsbD_append, BitVec.getLsbD_extractLsb'] <;> simp

@[simp] theorem fieldRs2_encodeR : fieldRs2 (encodeR f7 rs2 rs1 f3 rd op) = rs2 := by
  simp only [fieldRs2, encodeR]
  apply BitVec.eq_of_getLsbD_eq
  intro i hi
  interval_cases i <;> simp only [BitVec.getLsbD_append, BitVec.getLsbD_extractLsb'] <;> simp

@[simp] theorem fieldFunct7_encodeR : fieldFunct7 (encodeR f7 rs2 rs1 f3 rd op) = f7 := by
  simp only [fieldFunct7, encodeR]
  apply BitVec.eq_of_getLsbD_eq
  intro i hi
  interval_cases i <;> simp only [BitVec.getLsbD_append, BitVec.getLsbD_extractLsb'] <;> simp

/-- The bits the R mask keeps. -/
theorem encodeR_mask : encodeR f7 rs2 rs1 f3 rd op &&& 0xFE00707F = encodeR f7 0 0 f3 0 op := by
  simp only [encodeR]
  apply BitVec.eq_of_getLsbD_eq
  intro i hi
  interval_cases i <;> simp only [BitVec.getLsbD_append, BitVec.getLsbD_and] <;> simp

end R

/-! ### I format -/

section I
variable (imm : BitVec 12) (rs1 : Reg) (f3 : BitVec 3) (rd : Reg) (op : BitVec 7)

@[simp] theorem fieldOpcode_encodeI : fieldOpcode (encodeI imm rs1 f3 rd op) = op := by
  simp only [fieldOpcode, encodeI]
  apply BitVec.eq_of_getLsbD_eq
  intro i hi
  interval_cases i <;> simp only [BitVec.getLsbD_append, BitVec.getLsbD_extractLsb'] <;> simp

@[simp] theorem fieldRd_encodeI : fieldRd (encodeI imm rs1 f3 rd op) = rd := by
  simp only [fieldRd, encodeI]
  apply BitVec.eq_of_getLsbD_eq
  intro i hi
  interval_cases i <;> simp only [BitVec.getLsbD_append, BitVec.getLsbD_extractLsb'] <;> simp

@[simp] theorem fieldFunct3_encodeI : fieldFunct3 (encodeI imm rs1 f3 rd op) = f3 := by
  simp only [fieldFunct3, encodeI]
  apply BitVec.eq_of_getLsbD_eq
  intro i hi
  interval_cases i <;> simp only [BitVec.getLsbD_append, BitVec.getLsbD_extractLsb'] <;> simp

@[simp] theorem fieldRs1_encodeI : fieldRs1 (encodeI imm rs1 f3 rd op) = rs1 := by
  simp only [fieldRs1, encodeI]
  apply BitVec.eq_of_getLsbD_eq
  intro i hi
  interval_cases i <;> simp only [BitVec.getLsbD_append, BitVec.getLsbD_extractLsb'] <;> simp

@[simp] theorem fieldImmI_encodeI : fieldImmI (encodeI imm rs1 f3 rd op) = imm := by
  simp only [fieldImmI, encodeI]
  apply BitVec.eq_of_getLsbD_eq
  intro i hi
  interval_cases i <;> simp only [BitVec.getLsbD_append, BitVec.getLsbD_extractLsb'] <;> simp

/-- The bits the I mask keeps. -/
theorem encodeI_mask : encodeI imm rs1 f3 rd op &&& 0x0000707F = encodeI 0 0 f3 0 op := by
  simp only [encodeI]
  apply BitVec.eq_of_getLsbD_eq
  intro i hi
  interval_cases i <;> simp only [BitVec.getLsbD_append, BitVec.getLsbD_and] <;> simp

end I

/-! ### S format -/

section S
variable (imm : BitVec 12) (rs2 rs1 : Reg)

@[simp] theorem fieldOpcode_encodeS : fieldOpcode (encodeS imm rs2 rs1) = 0x23 := by
  simp only [fieldOpcode, encodeS]
  apply BitVec.eq_of_getLsbD_eq
  intro i hi
  interval_cases i <;> simp only [BitVec.getLsbD_append, BitVec.getLsbD_extractLsb'] <;> simp

@[simp] theorem fieldFunct3_encodeS : fieldFunct3 (encodeS imm rs2 rs1) = 2 := by
  simp only [fieldFunct3, encodeS]
  apply BitVec.eq_of_getLsbD_eq
  intro i hi
  interval_cases i <;> simp only [BitVec.getLsbD_append, BitVec.getLsbD_extractLsb'] <;> simp

@[simp] theorem fieldRs1_encodeS : fieldRs1 (encodeS imm rs2 rs1) = rs1 := by
  simp only [fieldRs1, encodeS]
  apply BitVec.eq_of_getLsbD_eq
  intro i hi
  interval_cases i <;> simp only [BitVec.getLsbD_append, BitVec.getLsbD_extractLsb'] <;> simp

@[simp] theorem fieldRs2_encodeS : fieldRs2 (encodeS imm rs2 rs1) = rs2 := by
  simp only [fieldRs2, encodeS]
  apply BitVec.eq_of_getLsbD_eq
  intro i hi
  interval_cases i <;> simp only [BitVec.getLsbD_append, BitVec.getLsbD_extractLsb'] <;> simp

@[simp] theorem fieldImmS_encodeS : fieldImmS (encodeS imm rs2 rs1) = imm := by
  simp only [fieldImmS, fieldFunct7, fieldRd, encodeS]
  apply BitVec.eq_of_getLsbD_eq
  intro i hi
  interval_cases i <;> simp only [BitVec.getLsbD_append, BitVec.getLsbD_extractLsb'] <;> simp

/-- The bits the S mask keeps. -/
theorem encodeS_mask : encodeS imm rs2 rs1 &&& 0x0000707F = encodeS 0 0 0 := by
  simp only [encodeS]
  apply BitVec.eq_of_getLsbD_eq
  intro i hi
  interval_cases i <;> simp only [BitVec.getLsbD_append, BitVec.getLsbD_and] <;> simp

end S

/-! ### B format -/

section B
variable (off : BitVec 13) (rs2 rs1 : Reg) (f3 : BitVec 3)

@[simp] theorem fieldOpcode_encodeB : fieldOpcode (encodeB off rs2 rs1 f3) = 0x63 := by
  simp only [fieldOpcode, encodeB]
  apply BitVec.eq_of_getLsbD_eq
  intro i hi
  interval_cases i <;> simp only [BitVec.getLsbD_append, BitVec.getLsbD_extractLsb'] <;> simp

@[simp] theorem fieldFunct3_encodeB : fieldFunct3 (encodeB off rs2 rs1 f3) = f3 := by
  simp only [fieldFunct3, encodeB]
  apply BitVec.eq_of_getLsbD_eq
  intro i hi
  interval_cases i <;> simp only [BitVec.getLsbD_append, BitVec.getLsbD_extractLsb'] <;> simp

@[simp] theorem fieldRs1_encodeB : fieldRs1 (encodeB off rs2 rs1 f3) = rs1 := by
  simp only [fieldRs1, encodeB]
  apply BitVec.eq_of_getLsbD_eq
  intro i hi
  interval_cases i <;> simp only [BitVec.getLsbD_append, BitVec.getLsbD_extractLsb'] <;> simp

@[simp] theorem fieldRs2_encodeB : fieldRs2 (encodeB off rs2 rs1 f3) = rs2 := by
  simp only [fieldRs2, encodeB]
  apply BitVec.eq_of_getLsbD_eq
  intro i hi
  interval_cases i <;> simp only [BitVec.getLsbD_append, BitVec.getLsbD_extractLsb'] <;> simp

/-- An even displacement is read back whole. -/
theorem fieldImmB_encodeB (h : off[0] = false) : fieldImmB (encodeB off rs2 rs1 f3) = off := by
  simp only [fieldImmB, encodeB]
  apply BitVec.eq_of_getLsbD_eq
  intro i hi
  interval_cases i <;> simp only [BitVec.getLsbD_append, BitVec.getLsbD_extractLsb'] <;> simp [h]

/-- The bits the B mask keeps. -/
theorem encodeB_mask : encodeB off rs2 rs1 f3 &&& 0x0000707F = encodeB 0 0 0 f3 := by
  simp only [encodeB]
  apply BitVec.eq_of_getLsbD_eq
  intro i hi
  interval_cases i <;> simp only [BitVec.getLsbD_append, BitVec.getLsbD_and] <;> simp

end B

/-! ### J* and IO formats -/

section J
variable (upper : BitVec 20) (rd : Reg) (op : BitVec 7)

@[simp] theorem fieldOpcode_encodeJ : fieldOpcode (encodeJ upper rd op) = op := by
  simp only [fieldOpcode, encodeJ]
  apply BitVec.eq_of_getLsbD_eq
  intro i hi
  interval_cases i <;> simp only [BitVec.getLsbD_append, BitVec.getLsbD_extractLsb'] <;> simp

@[simp] theorem fieldRd_encodeJ : fieldRd (encodeJ upper rd op) = rd := by
  simp only [fieldRd, encodeJ]
  apply BitVec.eq_of_getLsbD_eq
  intro i hi
  interval_cases i <;> simp only [BitVec.getLsbD_append, BitVec.getLsbD_extractLsb'] <;> simp

@[simp] theorem fieldUpper_encodeJ : fieldUpper (encodeJ upper rd op) = upper := by
  simp only [fieldUpper, encodeJ]
  apply BitVec.eq_of_getLsbD_eq
  intro i hi
  interval_cases i <;> simp only [BitVec.getLsbD_append, BitVec.getLsbD_extractLsb'] <;> simp

/-- The bits the J* mask keeps. -/
theorem encodeJ_mask : encodeJ upper rd op &&& 0x0000007F = encodeJ 0 0 op := by
  simp only [encodeJ]
  apply BitVec.eq_of_getLsbD_eq
  intro i hi
  interval_cases i <;> simp only [BitVec.getLsbD_append, BitVec.getLsbD_and] <;> simp

/-- The bits the IO mask keeps. -/
theorem encodeJ_ioMask : encodeJ upper rd op &&& 0xFFFFF07F = encodeJ upper 0 op := by
  simp only [encodeJ]
  apply BitVec.eq_of_getLsbD_eq
  intro i hi
  interval_cases i <;> simp only [BitVec.getLsbD_append, BitVec.getLsbD_and] <;> simp

end J

/-! ### A word is the encoding of its own fields -/

theorem encodeR_fields (w : Word) :
    encodeR (fieldFunct7 w) (fieldRs2 w) (fieldRs1 w) (fieldFunct3 w) (fieldRd w) (fieldOpcode w) = w := by
  simp only [encodeR, fieldFunct7, fieldRs1, fieldRs2, fieldFunct3, fieldRd, fieldOpcode]
  apply BitVec.eq_of_getLsbD_eq
  intro i hi
  interval_cases i <;> simp only [BitVec.getLsbD_append, BitVec.getLsbD_extractLsb'] <;> simp

theorem encodeI_fields (w : Word) :
    encodeI (fieldImmI w) (fieldRs1 w) (fieldFunct3 w) (fieldRd w) (fieldOpcode w) = w := by
  simp only [encodeI, fieldImmI, fieldRs1, fieldFunct3, fieldRd, fieldOpcode]
  apply BitVec.eq_of_getLsbD_eq
  intro i hi
  interval_cases i <;> simp only [BitVec.getLsbD_append, BitVec.getLsbD_extractLsb'] <;> simp

theorem encodeS_fields (w : Word) (h3 : fieldFunct3 w = 2) (ho : fieldOpcode w = 0x23) :
    encodeS (fieldImmS w) (fieldRs2 w) (fieldRs1 w) = w := by
  have := encodeR_fields w
  rw [h3, ho] at this
  refine Eq.trans ?_ this
  simp only [encodeS, encodeR, fieldImmS, fieldRs1, fieldRs2, fieldFunct7, fieldRd]
  apply BitVec.eq_of_getLsbD_eq
  intro i hi
  interval_cases i <;> simp only [BitVec.getLsbD_append, BitVec.getLsbD_extractLsb'] <;> simp

theorem encodeB_fields (w : Word) (ho : fieldOpcode w = 0x63) :
    encodeB (fieldImmB w) (fieldRs2 w) (fieldRs1 w) (fieldFunct3 w) = w := by
  have := encodeR_fields w
  rw [ho] at this
  refine Eq.trans ?_ this
  simp only [encodeB, encodeR, fieldImmB, fieldRs1, fieldRs2, fieldFunct7, fieldFunct3, fieldRd]
  apply BitVec.eq_of_getLsbD_eq
  intro i hi
  interval_cases i <;> simp only [BitVec.getLsbD_append, BitVec.getLsbD_extractLsb'] <;> simp

theorem encodeJ_fields (w : Word) : encodeJ (fieldUpper w) (fieldRd w) (fieldOpcode w) = w := by
  simp only [encodeJ, fieldUpper, fieldRd, fieldOpcode]
  apply BitVec.eq_of_getLsbD_eq
  intro i hi
  interval_cases i <;> simp only [BitVec.getLsbD_append, BitVec.getLsbD_extractLsb'] <;> simp

/-- A branch displacement read from a word is even (R85). -/
theorem fieldImmB_even (w : Word) : (fieldImmB w)[0] = false := by
  rw [← BitVec.getLsbD_eq_getElem]
  simp only [fieldImmB, BitVec.getLsbD_append]
  simp

/-! ### Byte order (20_memory.md rule R54) -/

/-- An image word is fetched back unchanged. -/
@[simp] theorem le32_bytesLe (v : Word) : le32 (bytesLe v) = v := by
  simp only [le32, bytesLe]
  apply BitVec.eq_of_getLsbD_eq
  intro i hi
  interval_cases i <;> simp only [BitVec.getLsbD_append, BitVec.getLsbD_extractLsb'] <;> simp

end Sys2Proof
end

