-- ==== Sys2Proof/Laws/Memory.lean ====
section
/-! SUPPORT. What the memory operations do to the bytes (20_memory.md rules R52, R53), and that each keeps the
canonical form. -/

namespace Sys2Proof.Machine

/-! ### Reading after writing -/

theorem readByte_eraseByte (m : Memory) (a b : Nat) :
    (m.eraseByte a).readByte b = if a = b then Memory.unlisted else m.readByte b := by
  induction m with
  | nil => simp [Memory.eraseByte, Memory.readByte]
  | cons x m ih =>
    obtain ⟨c, v⟩ := x
    by_cases hc : c = a
    · subst hc; by_cases hb : c = b <;> simp_all [Memory.eraseByte, Memory.readByte]
    · by_cases hb : c = b
      · subst hb; simp [Memory.eraseByte, Memory.readByte, hc, Ne.symm hc]
      · simp [Memory.eraseByte, Memory.readByte, hc, hb, ih]

/-- Inserting an entry for `a` into a memory without one. -/
theorem readByte_insertByte {m : Memory} {a : Nat} (ha : ∀ x ∈ m, x.1 ≠ a) (v : Byte) (b : Nat) :
    (m.insertByte a v).readByte b = if a = b then v else m.readByte b := by
  induction m with
  | nil => simp [Memory.insertByte, Memory.readByte]
  | cons x m ih =>
    obtain ⟨c, u⟩ := x
    have hc : c ≠ a := ha (c, u) (by simp)
    have ih := ih fun y hy => ha y (by simp [hy])
    by_cases hlt : a < c
    · simp [Memory.insertByte, Memory.readByte, hlt]
    · by_cases hb : c = b
      · subst hb; simp [Memory.insertByte, Memory.readByte, hlt, Ne.symm hc]
      · simp [Memory.insertByte, Memory.readByte, hlt, hb, ih]

theorem ne_of_mem_eraseByte (m : Memory) (a : Nat) : ∀ x ∈ m.eraseByte a, x.1 ≠ a := by
  induction m with
  | nil => simp [Memory.eraseByte]
  | cons x m ih =>
    obtain ⟨c, v⟩ := x
    by_cases hc : c = a
    · simpa [Memory.eraseByte, hc] using ih
    · simpa [Memory.eraseByte, hc] using ih

/-- One byte read after one byte written: the byte at that address, every other byte as before. -/
theorem readByte_writeByte (m : Memory) (a : Nat) (v : Byte) (b : Nat) :
    (m.writeByte a v).readByte b = if a = b then v else m.readByte b := by
  unfold Memory.writeByte
  split
  · next h => subst h; exact readByte_eraseByte m a b
  · rw [readByte_insertByte (ne_of_mem_eraseByte m a), readByte_eraseByte]; split <;> rfl

/-- A byte outside the written bytes reads as before. -/
theorem readByte_writeBytes_outside (m : Memory) (a : Nat) (bs : List Byte) (b : Nat)
    (h : b < a ∨ a + bs.length ≤ b) : (m.writeBytes a bs).readByte b = m.readByte b := by
  induction bs generalizing m a with
  | nil => rfl
  | cons v bs ih =>
    simp only [List.length_cons] at h
    rw [Memory.writeBytes, ih _ _ (by omega), readByte_writeByte, if_neg (by omega)]

/-- Each written byte reads as the byte written there. -/
theorem readByte_writeBytes_inside (m : Memory) (a : Nat) (bs : List Byte) (k : Nat) (h : k < bs.length) :
    (m.writeBytes a bs).readByte (a + k) = bs[k] := by
  induction bs generalizing m a k with
  | nil => simp at h
  | cons v bs ih =>
    cases k with
    | zero =>
      rw [Memory.writeBytes, readByte_writeBytes_outside _ _ _ _ (by omega), readByte_writeByte]; simp
    | succ k =>
      have := ih (m.writeByte a v) (a + 1) k (by simpa using h)
      rw [Memory.writeBytes, show a + (k + 1) = a + 1 + k by omega, this]; simp

/-! ### The canonical form -/

theorem wfFrom_cons (lo c : Nat) (v : Byte) (m : Memory) :
    Memory.wfFrom lo ((c, v) :: m) = true ↔
      lo ≤ c ∧ c < Config.memSize ∧ v ≠ 0 ∧ Memory.wfFrom (c + 1) m = true := by
  simp [Memory.wfFrom, and_assoc]

theorem wfFrom_mono {m : Memory} {lo hi : Nat} (h : lo ≤ hi) (hm : Memory.wfFrom hi m = true) :
    Memory.wfFrom lo m = true := by
  cases m with
  | nil => rfl
  | cons x m =>
    obtain ⟨c, v⟩ := x
    rw [wfFrom_cons] at hm ⊢
    exact ⟨by omega, hm.2⟩

theorem wfFrom_eraseByte {m : Memory} {lo : Nat} (a : Nat) (hm : Memory.wfFrom lo m = true) :
    Memory.wfFrom lo (m.eraseByte a) = true := by
  induction m generalizing lo with
  | nil => rfl
  | cons x m ih =>
    obtain ⟨c, v⟩ := x
    rw [wfFrom_cons] at hm
    obtain ⟨h1, h2, h3, h4⟩ := hm
    by_cases hc : c = a
    · simpa [Memory.eraseByte, hc] using ih (wfFrom_mono (by omega) h4)
    · rw [Memory.eraseByte, if_neg hc, wfFrom_cons]
      exact ⟨h1, h2, h3, ih h4⟩

theorem wfFrom_insertByte {m : Memory} {lo a : Nat} {v : Byte} (ha : ∀ x ∈ m, x.1 ≠ a) (hlo : lo ≤ a)
    (hhi : a < Config.memSize) (hv : v ≠ 0) (hm : Memory.wfFrom lo m = true) :
    Memory.wfFrom lo (m.insertByte a v) = true := by
  induction m generalizing lo with
  | nil => rw [Memory.insertByte, wfFrom_cons]; exact ⟨hlo, hhi, hv, rfl⟩
  | cons x m ih =>
    obtain ⟨c, u⟩ := x
    rw [wfFrom_cons] at hm
    obtain ⟨h1, h2, h3, h4⟩ := hm
    have hc : c ≠ a := ha (c, u) (by simp)
    by_cases hlt : a < c
    · rw [Memory.insertByte, if_pos hlt, wfFrom_cons, wfFrom_cons]
      exact ⟨hlo, hhi, hv, by omega, h2, h3, h4⟩
    · rw [Memory.insertByte, if_neg hlt, wfFrom_cons]
      exact ⟨h1, h2, h3, ih (fun y hy => ha y (by simp [hy])) (by omega) h4⟩

/-- Writing a byte inside memory keeps the canonical form. -/
theorem wf_writeByte {m : Memory} {a : Nat} (v : Byte) (ha : a < Config.memSize) (hm : m.wf = true) :
    (m.writeByte a v).wf = true := by
  unfold Memory.writeByte Memory.wf at *
  split
  · exact wfFrom_eraseByte a hm
  · next hv => exact wfFrom_insertByte (ne_of_mem_eraseByte m a) (Nat.zero_le a) ha hv (wfFrom_eraseByte a hm)

/-- Writing bytes inside memory keeps the canonical form. -/
theorem wf_writeBytes {m : Memory} {a : Nat} (bs : List Byte) (ha : a + bs.length ≤ Config.memSize)
    (hm : m.wf = true) : (m.writeBytes a bs).wf = true := by
  induction bs generalizing m a with
  | nil => exact hm
  | cons v bs ih =>
    simp only [List.length_cons] at ha
    exact ih (by omega) (wf_writeByte v (by omega) hm)

/-- Reset's memory is canonical. -/
theorem wf_reset : State.reset.mem.wf = true := rfl

end Sys2Proof.Machine
end

