-- ==== Sys2Proof/Laws/State.lean ====
section
/-! SUPPORT. One lemma per field per update of State, and the register file's read-after-write laws. -/

namespace Sys2Proof.Machine

section Fields
variable (s : State) (r q : Reg) (v t : Word) (bs : List Byte) (o : OutRecord) (c : Cause) (hw ha : Word)

@[simp] theorem setReg_pc : (s.setReg r v).pc = s.pc := rfl
@[simp] theorem setReg_running : (s.setReg r v).running = s.running := rfl
@[simp] theorem setReg_haltRec : (s.setReg r v).haltRec = s.haltRec := rfl
@[simp] theorem setReg_mem : (s.setReg r v).mem = s.mem := rfl
@[simp] theorem setReg_output : (s.setReg r v).output = s.output := rfl
@[simp] theorem setReg_inputs : (s.setReg r v).inputs = s.inputs := rfl
@[simp] theorem setReg_extBranch : (s.setReg r v).extBranch = s.extBranch := rfl

@[simp] theorem setPc_regs : (s.setPc t).regs = s.regs := rfl
@[simp] theorem setPc_pc : (s.setPc t).pc = t := rfl
@[simp] theorem setPc_running : (s.setPc t).running = s.running := rfl
@[simp] theorem setPc_haltRec : (s.setPc t).haltRec = s.haltRec := rfl
@[simp] theorem setPc_mem : (s.setPc t).mem = s.mem := rfl
@[simp] theorem setPc_output : (s.setPc t).output = s.output := rfl
@[simp] theorem setPc_inputs : (s.setPc t).inputs = s.inputs := rfl
@[simp] theorem setPc_extBranch : (s.setPc t).extBranch = s.extBranch := rfl

@[simp] theorem advance_regs : s.advance.regs = s.regs := rfl
@[simp] theorem advance_pc : s.advance.pc = s.pc + 4 := rfl
@[simp] theorem advance_running : s.advance.running = s.running := rfl
@[simp] theorem advance_haltRec : s.advance.haltRec = s.haltRec := rfl
@[simp] theorem advance_mem : s.advance.mem = s.mem := rfl
@[simp] theorem advance_output : s.advance.output = s.output := rfl
@[simp] theorem advance_inputs : s.advance.inputs = s.inputs := rfl
@[simp] theorem advance_extBranch : s.advance.extBranch = s.extBranch := rfl

@[simp] theorem memWrite_regs : (s.memWrite t bs).regs = s.regs := rfl
@[simp] theorem memWrite_pc : (s.memWrite t bs).pc = s.pc := rfl
@[simp] theorem memWrite_running : (s.memWrite t bs).running = s.running := rfl
@[simp] theorem memWrite_haltRec : (s.memWrite t bs).haltRec = s.haltRec := rfl
@[simp] theorem memWrite_mem : (s.memWrite t bs).mem = s.mem.writeBytes t.toNat bs := rfl
@[simp] theorem memWrite_output : (s.memWrite t bs).output = s.output := rfl
@[simp] theorem memWrite_inputs : (s.memWrite t bs).inputs = s.inputs := rfl
@[simp] theorem memWrite_extBranch : (s.memWrite t bs).extBranch = s.extBranch := rfl

@[simp] theorem emit_regs : (s.emit o).regs = s.regs := rfl
@[simp] theorem emit_pc : (s.emit o).pc = s.pc := rfl
@[simp] theorem emit_running : (s.emit o).running = s.running := rfl
@[simp] theorem emit_haltRec : (s.emit o).haltRec = s.haltRec := rfl
@[simp] theorem emit_mem : (s.emit o).mem = s.mem := rfl
@[simp] theorem emit_output : (s.emit o).output = s.output ++ [o] := rfl
@[simp] theorem emit_inputs : (s.emit o).inputs = s.inputs := rfl
@[simp] theorem emit_extBranch : (s.emit o).extBranch = s.extBranch := rfl

@[simp] theorem enterHalted_regs : (s.enterHalted c hw ha).regs = s.regs := rfl
@[simp] theorem enterHalted_pc : (s.enterHalted c hw ha).pc = s.pc := rfl
@[simp] theorem enterHalted_running : (s.enterHalted c hw ha).running = false := rfl
@[simp] theorem enterHalted_haltRec : (s.enterHalted c hw ha).haltRec = ⟨c.code, s.pc, hw, ha⟩ := rfl
@[simp] theorem enterHalted_mem : (s.enterHalted c hw ha).mem = s.mem := rfl
@[simp] theorem enterHalted_output : (s.enterHalted c hw ha).output = s.output := rfl
@[simp] theorem enterHalted_inputs : (s.enterHalted c hw ha).inputs = s.inputs := rfl
@[simp] theorem enterHalted_extBranch : (s.enterHalted c hw ha).extBranch = s.extBranch := rfl

@[simp] theorem getReg_setPc : (s.setPc t).getReg q = s.getReg q := rfl
@[simp] theorem getReg_advance : s.advance.getReg q = s.getReg q := rfl
@[simp] theorem getReg_memWrite : (s.memWrite t bs).getReg q = s.getReg q := rfl
@[simp] theorem getReg_emit : (s.emit o).getReg q = s.getReg q := rfl
@[simp] theorem getReg_enterHalted : (s.enterHalted c hw ha).getReg q = s.getReg q := rfl

/-- A register reads the value written to it, register 0 included (10_state.md rule R21). -/
@[simp] theorem getReg_setReg_same : (s.setReg r v).getReg r = v := by
  simp [State.getReg, State.setReg]

/-- Writing a register leaves every other register alone. -/
theorem getReg_setReg_other (h : q ≠ r) : (s.setReg r v).getReg q = s.getReg q := by
  have : r.toNat ≠ q.toNat := fun e => h (BitVec.eq_of_toNat_eq e.symm)
  simp [State.getReg, State.setReg, Vector.getElem_set_ne, this]

/-- A register read after a register write. -/
theorem getReg_setReg : (s.setReg r v).getReg q = if q = r then v else s.getReg q := by
  by_cases h : q = r
  · subst h; simp
  · simp [h, getReg_setReg_other s r q v h]

end Fields

section Input
variable (s : State) (rd q : Reg) (v : Word) (rest : List Word)

@[simp] theorem completeInput_pc : (completeInput rd v rest s).pc = s.pc + 4 := rfl
@[simp] theorem completeInput_running : (completeInput rd v rest s).running = s.running := rfl
@[simp] theorem completeInput_haltRec : (completeInput rd v rest s).haltRec = s.haltRec := rfl
@[simp] theorem completeInput_mem : (completeInput rd v rest s).mem = s.mem := rfl
@[simp] theorem completeInput_output : (completeInput rd v rest s).output = s.output ++ [.inputPrompt rd] := rfl
@[simp] theorem completeInput_inputs : (completeInput rd v rest s).inputs = rest := rfl
@[simp] theorem completeInput_extBranch : (completeInput rd v rest s).extBranch = s.extBranch := rfl

/-- A completed `input` writes the supplied value to its register and no other (43_system_io.md rule R252). -/
theorem getReg_completeInput : (completeInput rd v rest s).getReg q = if q = rd then v else s.getReg q := by
  show (State.setReg _ rd v).getReg q = _
  rw [getReg_setReg]
  rfl

end Input

end Sys2Proof.Machine
end

