-- ==== Sys2Proof/Laws/Ops.lean ====
section
/-! SUPPORT. One lemma per shared operation that says what it does, and the inversion of a step and of `exec`: every
way they can answer. -/

namespace Sys2Proof.Machine

/-! ### Shared operations -/

/-- A register write and a pc assignment: exactly those two changes. -/
theorem writesReg_setReg_setPc (rd : Reg) (v p : Word) (s : State) : WritesReg rd v p s ((s.setReg rd v).setPc p) :=
  ⟨by simp, fun r hr => by simp [getReg_setReg_other _ _ _ _ hr], rfl, fun _ => rfl, ⟨rfl, rfl, rfl⟩, ⟨rfl, rfl⟩⟩

/-- How an ALU instruction ends (40_alu.md rule R153). -/
theorem writesReg_writeResult (rd : Reg) (v : Word) (s : State) :
    WritesReg rd v (s.pc + 4) s (writeResult rd v s) := writesReg_setReg_setPc rd v (s.pc + 4) s

/-- A pc assignment alone. -/
theorem movesPc_setPc (p : Word) (s : State) : MovesPc p s (s.setPc p) :=
  ⟨rfl, fun _ => rfl, fun _ => rfl, ⟨rfl, rfl, rfl⟩, ⟨rfl, rfl⟩⟩

/-- Entering HALTED changes the running flag and the halt record alone (60_exceptions.md rule R282). -/
theorem entersHalted_enterHalted (c : Cause) (hw ha : Word) (s : State) :
    EntersHalted c hw ha s (s.enterHalted c hw ha) :=
  ⟨rfl, rfl, rfl, rfl, fun _ => rfl, fun _ => rfl, ⟨rfl, rfl⟩⟩

/-- A four-byte read, byte by byte. -/
theorem memRead_four (s : State) (a : Word) :
    s.memRead a 4 = [s.mem.readByte a.toNat, s.mem.readByte (a.toNat + 1), s.mem.readByte (a.toNat + 2),
      s.mem.readByte (a.toNat + 3)] := rfl

/-- Four bytes written at an address read back as themselves. -/
theorem memRead_memWrite_four (s : State) (a : Word) (b0 b1 b2 b3 : Byte) :
    (s.memWrite a [b0, b1, b2, b3]).memRead a 4 = [b0, b1, b2, b3] := by
  rw [memRead_four]
  have h (k : Nat) (hk : k < 4) := readByte_writeBytes_inside s.mem a.toNat [b0, b1, b2, b3] k hk
  have h0 := h 0 (by omega)
  have h1 := h 1 (by omega)
  have h2 := h 2 (by omega)
  have h3 := h 3 (by omega)
  simp at h0 h1 h2 h3
  simp [h0, h1, h2, h3]

/-- A word that fits the fetch range is fetched from where it is stored (20_memory.md rule R55). -/
theorem fetch_of_inRange {s : State} (h : InRange s.pc 4) : fetch s = some (le32 (s.memRead s.pc 4)) := if_pos h

theorem fetch_of_not_inRange {s : State} (h : ¬ InRange s.pc 4) : fetch s = none := if_neg h

/-- A fetch sees only the pc and memory. -/
theorem fetch_congr {s t : State} (hp : t.pc = s.pc) (hm : t.mem = s.mem) : fetch t = fetch s := by
  simp [fetch, State.memRead, hp, hm]

@[simp] theorem fetch_enterHalted (s : State) (c : Cause) (hw ha : Word) :
    fetch (s.enterHalted c hw ha) = fetch s := rfl

@[simp] theorem effectiveAddr_enterHalted (s : State) (c : Cause) (hw ha : Word) (r : Reg) (imm : BitVec 12) :
    effectiveAddr (s.enterHalted c hw ha) r imm = effectiveAddr s r imm := rfl

/-! ### Inversion -/

/-- Every way a step can answer: idle in HALTED, a fetch outside memory, a word that is no instruction, or the
decoded instruction's meaning (30_encoding.md rule R110). -/
theorem step_cases {s t : State} (h : step s = .next t) :
    (s.running = false ∧ t = s) ∨
    (s.running = true ∧ fetch s = none ∧ t = s.enterHalted .fetchOutOfRange 0 0) ∨
    (s.running = true ∧ ∃ w k, fetch s = some w ∧ decode w = .illegal k ∧ t = s.enterHalted (causeOfIllegal k) w 0) ∨
    (s.running = true ∧ ∃ w i, fetch s = some w ∧ decode w = .instr i ∧ exec i s = .next t) := by
  unfold step at h
  split at h
  · next hr =>
    refine .inr ?_
    unfold stepRunning at h
    split at h
    · next hf => exact .inl ⟨hr, hf, by cases h; rfl⟩
    · next w hf =>
      split at h
      · next i hi => exact .inr (.inr ⟨hr, w, i, hf, hi, h⟩)
      · next k hk => exact .inr (.inl ⟨hr, w, k, hf, hk, by cases h; rfl⟩)
  · next hr => exact .inl ⟨by simpa using hr, by cases h; rfl⟩

/-- The step of a running machine on a word that decodes. -/
theorem step_of_instr {s : State} {w : Word} {i : Instr} (hr : s.running = true) (hf : fetch s = some w)
    (hd : decode w = .instr i) : step s = exec i s := by
  simp [step, stepRunning, hr, hf, hd]

/-- The step of a running machine on a word that does not decode. -/
theorem step_of_illegal {s : State} {w : Word} {k : Illegal} (hr : s.running = true) (hf : fetch s = some w)
    (hd : decode w = .illegal k) : step s = .next (s.enterHalted (causeOfIllegal k) w 0) := by
  simp [step, stepRunning, hr, hf, hd, takeIllegal, raiseFault]

/-- The shapes a meaning's answer can have. -/
inductive ExecShape (i : Instr) (s : State) : State → Prop where
  /-- One register and the pc. -/
  | writes (rd : Reg) (v p : Word) (hd : destReg i = some rd) : ExecShape i s ((s.setReg rd v).setPc p)
  /-- The pc alone. -/
  | moves (p : Word) : ExecShape i s (s.setPc p)
  /-- A store inside memory. -/
  | stores (rs1 rs2 : Reg) (imm : BitVec 12) (hi : i = .sw rs1 rs2 imm) (hr : InRange (effectiveAddr s rs1 imm) 4) :
      ExecShape i s (s.memWrite (effectiveAddr s rs1 imm) (bytesBe (s.getReg rs2))).advance
  /-- The normal stop. -/
  | halts (hi : i = .halt) : ExecShape i s (s.enterHalted .halt 0 0)
  /-- A branch that EXT_BRANCH rejects. -/
  | rejects (he : s.extBranch = .reject)
      (hi : ∃ rs1 rs2 off, i = .blt rs1 rs2 off ∨ i = .bge rs1 rs2 off ∨ i = .bltu rs1 rs2 off ∨ i = .bgeu rs1 rs2 off) :
      ExecShape i s (s.enterHalted .unsupportedInstruction (encode i) 0)
  /-- A load or store outside memory. -/
  | outside (rs1 : Reg) (imm : BitVec 12) (hi : (∃ rd, i = .lw rd rs1 imm) ∨ ∃ rs2, i = .sw rs1 rs2 imm)
      (hr : ¬ InRange (effectiveAddr s rs1 imm) 4) :
      ExecShape i s (s.enterHalted .dataOutOfRange (encode i) (effectiveAddr s rs1 imm))
  /-- `print`. -/
  | prints (rd : Reg) (hi : i = .print rd) : ExecShape i s (s.emit (.print rd (s.getReg rd))).advance
  /-- `input` with a supplied value. -/
  | takes (rd : Reg) (v : Word) (rest : List Word) (hi : i = .input rd) (hs : s.inputs = v :: rest) :
      ExecShape i s (completeInput rd v rest s)
  /-- `input` held. -/
  | holds (rd : Reg) (hi : i = .input rd) (hs : s.inputs = []) : ExecShape i s s

theorem shape_branchOn (i : Instr) (c : Cond) (rs1 rs2 : Reg) (off : BitVec 13) {s t : State}
    (h : branchOn c rs1 rs2 off s = .next t) : ExecShape i s t := by
  unfold branchOn at h
  cases h
  split
  · exact .moves _
  · exact .moves _

theorem shape_extBranchOn {i : Instr} (c : Cond) (rs1 rs2 : Reg) (off : BitVec 13) {s t : State}
    (hi : ∃ rs1 rs2 off, i = .blt rs1 rs2 off ∨ i = .bge rs1 rs2 off ∨ i = .bltu rs1 rs2 off ∨ i = .bgeu rs1 rs2 off)
    (h : extBranchOn (encode i) c rs1 rs2 off s = .next t) : ExecShape i s t := by
  unfold extBranchOn at h
  split at h
  · next he => cases h; exact .rejects he hi
  · exact shape_branchOn i c rs1 rs2 off h

/-- Every way `exec` can answer. -/
theorem exec_shape {i : Instr} {s t : State} (h : exec i s = .next t) : ExecShape i s t := by
  cases i with
  | add rd _ _ | sub rd _ _ | sll rd _ _ | xor rd _ _ | srl rd _ _ | sra rd _ _ | or rd _ _ | and rd _ _ =>
    cases h; exact .writes rd _ _ rfl
  | addi rd _ _ | xori rd _ _ | ori rd _ _ | andi rd _ _ | slli rd _ _ | srli rd _ _ | srai rd _ _ =>
    cases h; exact .writes rd _ _ rfl
  | lw rd rs1 imm =>
    simp only [exec, execLw] at h
    split at h
    · cases h; exact .writes rd _ _ rfl
    · next hr => cases h; exact .outside rs1 imm (.inl ⟨rd, rfl⟩) hr
  | sw rs1 rs2 imm =>
    simp only [exec, execSw] at h
    split at h
    · next hr => cases h; exact .stores rs1 rs2 imm rfl hr
    · next hr => cases h; exact .outside rs1 imm (.inr ⟨rs2, rfl⟩) hr
  | beq rs1 rs2 off => exact shape_branchOn _ .eq rs1 rs2 off h
  | bne rs1 rs2 off => exact shape_branchOn _ .ne rs1 rs2 off h
  | blt rs1 rs2 off => exact shape_extBranchOn .lt rs1 rs2 off ⟨rs1, rs2, off, by simp⟩ h
  | bge rs1 rs2 off => exact shape_extBranchOn .ge rs1 rs2 off ⟨rs1, rs2, off, by simp⟩ h
  | bltu rs1 rs2 off => exact shape_extBranchOn .ltu rs1 rs2 off ⟨rs1, rs2, off, by simp⟩ h
  | bgeu rs1 rs2 off => exact shape_extBranchOn .geu rs1 rs2 off ⟨rs1, rs2, off, by simp⟩ h
  | jal rd bits => cases h; exact .writes rd _ _ rfl
  | print rd => cases h; exact .prints rd rfl
  | input rd =>
    simp only [exec, execInput] at h
    split at h
    · next hs => cases h; exact .holds rd rfl hs
    · next v rest hs => cases h; exact .takes rd v rest rfl hs
  | halt => cases h; exact .halts rfl

end Sys2Proof.Machine
end

