-- ==== Sys2Proof/Laws/Host.lean ====
section
/-! SUPPORT. One lemma per field per host operation on the machine, and what each move of the host gives
(60_exceptions.md rule R292). -/

namespace Sys2Proof.Machine

section Fields
variable (s : State) (bs : List Byte) (v : Word) (q : Reg)

@[simp] theorem loadImage_regs : (s.loadImage bs).regs = s.regs := rfl
@[simp] theorem loadImage_pc : (s.loadImage bs).pc = s.pc := rfl
@[simp] theorem loadImage_running : (s.loadImage bs).running = s.running := rfl
@[simp] theorem loadImage_haltRec : (s.loadImage bs).haltRec = s.haltRec := rfl
@[simp] theorem loadImage_mem : (s.loadImage bs).mem = s.mem.writeBytes Config.imageBase bs := rfl
@[simp] theorem loadImage_output : (s.loadImage bs).output = s.output := rfl
@[simp] theorem loadImage_inputs : (s.loadImage bs).inputs = s.inputs := rfl
@[simp] theorem loadImage_extBranch : (s.loadImage bs).extBranch = s.extBranch := rfl
@[simp] theorem getReg_loadImage : (s.loadImage bs).getReg q = s.getReg q := rfl

@[simp] theorem supply_regs : (s.supply v).regs = s.regs := rfl
@[simp] theorem supply_pc : (s.supply v).pc = s.pc := rfl
@[simp] theorem supply_running : (s.supply v).running = s.running := rfl
@[simp] theorem supply_haltRec : (s.supply v).haltRec = s.haltRec := rfl
@[simp] theorem supply_mem : (s.supply v).mem = s.mem := rfl
@[simp] theorem supply_output : (s.supply v).output = s.output := rfl
@[simp] theorem supply_inputs : (s.supply v).inputs = s.inputs ++ [v] := rfl
@[simp] theorem supply_extBranch : (s.supply v).extBranch = s.extBranch := rfl
@[simp] theorem getReg_supply : (s.supply v).getReg q = s.getReg q := rfl
@[simp] theorem fetch_supply : fetch (s.supply v) = fetch s := rfl

@[simp] theorem resetAll_regs : s.resetAll.regs = Vector.replicate 32 0 := rfl
@[simp] theorem resetAll_pc : s.resetAll.pc = 0 := rfl
@[simp] theorem resetAll_running : s.resetAll.running = true := rfl
@[simp] theorem resetAll_haltRec : s.resetAll.haltRec = HaltRecord.zero := rfl
@[simp] theorem resetAll_mem : s.resetAll.mem = [] := rfl
@[simp] theorem resetAll_output : s.resetAll.output = [] := rfl
@[simp] theorem resetAll_inputs : s.resetAll.inputs = [] := rfl
@[simp] theorem resetAll_extBranch : s.resetAll.extBranch = s.extBranch := rfl
@[simp] theorem getReg_resetAll : s.resetAll.getReg q = 0 := by simp [State.getReg]

end Fields

variable {x y : Session}

/-- A load is taken exactly when the machine is not started and the image fits, and only memory changes. -/
theorem hostLoad_eq_some {bytes : List Byte} : hostLoad bytes x = some y ↔
    (x.phase ≠ .started ∧ bytes.length ≤ Config.imageMax) ∧ y = ⟨x.machine.loadImage bytes, .loaded⟩ := by
  rw [hostLoad, Option.ite_none_right_eq_some, Option.some.injEq, eq_comm (a := y)]

/-- The run begins exactly after a load, and the machine is as it was. -/
theorem hostRun_eq_some : hostRun x = some y ↔ x.phase = .loaded ∧ y = ⟨x.machine, .started⟩ := by
  rw [hostRun, Option.ite_none_right_eq_some, Option.some.injEq, eq_comm (a := y)]

/-- A value is taken exactly while an `input` is held, and only the channel changes. -/
theorem supplyInput_eq_some {v : Word} : supplyInput v x = some y ↔
    (x.phase = .started ∧ inputHeld x.machine = true) ∧ y = ⟨x.machine.supply v, .started⟩ := by
  rw [supplyInput, Option.ite_none_right_eq_some, Option.some.injEq, eq_comm (a := y)]

/-- The block steps exactly when it is started, running and not held, and then as `step` says. -/
theorem blockStep_eq_some : blockStep x = some y ↔
    (x.phase = .started ∧ x.machine.running = true ∧ inputHeld x.machine = false) ∧ y.phase = .started ∧
      step x.machine = .next y.machine := by
  obtain ⟨m, p⟩ := y
  rw [blockStep, Option.ite_none_right_eq_some]
  refine and_congr_right fun _ => ?_
  cases h : step x.machine <;> simp [eq_comm, and_comm]

/-- What a held machine is: running, nothing supplied, an `input` at the pc (60_exceptions.md rule R291). -/
theorem inputHeld_iff (s : State) : inputHeld s = true ↔
    s.running = true ∧ s.inputs = [] ∧ ∃ w rd, fetch s = some w ∧ decode w = .instr (.input rd) := by
  unfold inputHeld
  constructor
  · intro h
    split at h
    · next w hr hi hf =>
      split at h
      · next rd hd => exact ⟨hr, hi, w, rd, hf, hd⟩
      · cases h
    · cases h
  · rintro ⟨hr, hi, w, rd, hf, hd⟩
    simp [hr, hi, hf, hd]

/-- The start-up sequence: refused for an image that does not fit, else reset with the image in memory, and started
(70_reset_and_hazards.md rule R322). -/
theorem startUp_eq_some {bytes : List Byte} : startUp bytes x = some y ↔
    bytes.length ≤ Config.imageMax ∧ y = ⟨x.machine.resetAll.loadImage bytes, .started⟩ := by
  rw [startUp, Option.bind_eq_some_iff]
  constructor
  · rintro ⟨z, hz, hy⟩
    obtain ⟨⟨_, hb⟩, rfl⟩ := hostLoad_eq_some.1 hz
    exact ⟨hb, (hostRun_eq_some.1 hy).2⟩
  · rintro ⟨hb, rfl⟩
    exact ⟨_, hostLoad_eq_some.2 ⟨⟨by simp [hostReset], hb⟩, rfl⟩, hostRun_eq_some.2 ⟨rfl, rfl⟩⟩

/-- A supplied value ends the hold. -/
theorem inputHeld_supply (s : State) (v : Word) : inputHeld (s.supply v) = false := by
  rw [← Bool.not_eq_true, inputHeld_iff]
  simp

/-- The step after a value is supplied completes the held `input` with it (43_system_io.md rule R252). -/
theorem step_supply {s : State} (h : inputHeld s = true) (v : Word) :
    ∃ w rd, fetch s = some w ∧ decode w = .instr (.input rd) ∧
      step (s.supply v) = .next (completeInput rd v [] (s.supply v)) := by
  obtain ⟨hr, hi, w, rd, hf, hd⟩ := (inputHeld_iff s).1 h
  refine ⟨w, rd, hf, hd, ?_⟩
  rw [step_of_instr (s := s.supply v) hr hf hd]
  simp [exec, execInput, hi]

/-- The step at a held `input` changes nothing (60_exceptions.md rule R291; log entry 1). -/
theorem step_of_inputHeld {s : State} (h : inputHeld s = true) : step s = .next s := by
  obtain ⟨hr, hi, w, rd, hf, hd⟩ := (inputHeld_iff s).1 h
  rw [step_of_instr hr hf hd]
  simp [exec, execInput, hi, holdForInput]

end Sys2Proof.Machine
end

