-- ==== Sys2Proof/Laws/PerInstr.lean ====
section
/-! SUPPORT. A law stated for every instruction: its encoded word is a word of its row of opcode_table.json. -/

namespace Sys2Proof.Laws.TableRow

/-- The row's `match` and `mask` in opcode_table.json. -/
def row : Instr → Word × Word
  | .add .. => (0x00000033, 0xFE00707F)
  | .sub .. => (0x40000033, 0xFE00707F)
  | .sll .. => (0x00001033, 0xFE00707F)
  | .xor .. => (0x00004033, 0xFE00707F)
  | .srl .. => (0x00005033, 0xFE00707F)
  | .sra .. => (0x40005033, 0xFE00707F)
  | .or .. => (0x00006033, 0xFE00707F)
  | .and .. => (0x00007033, 0xFE00707F)
  | .addi .. => (0x00000013, 0x0000707F)
  | .xori .. => (0x00004013, 0x0000707F)
  | .ori .. => (0x00006013, 0x0000707F)
  | .andi .. => (0x00007013, 0x0000707F)
  | .slli .. => (0x00001013, 0xFE00707F)
  | .srli .. => (0x00005013, 0xFE00707F)
  | .srai .. => (0x40005013, 0xFE00707F)
  | .lw .. => (0x00002003, 0x0000707F)
  | .sw .. => (0x00002023, 0x0000707F)
  | .beq .. => (0x00000063, 0x0000707F)
  | .bne .. => (0x00001063, 0x0000707F)
  | .blt .. => (0x00004063, 0x0000707F)
  | .bge .. => (0x00005063, 0x0000707F)
  | .bltu .. => (0x00006063, 0x0000707F)
  | .bgeu .. => (0x00007063, 0x0000707F)
  | .jal .. => (0x0000006F, 0x0000007F)
  | .print .. => (0x0000000B, 0xFFFFF07F)
  | .input .. => (0x0000000C, 0xFFFFF07F)
  | .halt => (0x00000000, 0xFFFFFFFF)

/-- The encoded word matches the row. -/
def Statement (i : Instr) : Prop := encode i &&& (row i).2 = (row i).1

theorem add (rd rs1 rs2 : Reg) : Statement (.add rd rs1 rs2) := (encodeR_mask ..).trans rfl
theorem sub (rd rs1 rs2 : Reg) : Statement (.sub rd rs1 rs2) := (encodeR_mask ..).trans rfl
theorem sll (rd rs1 rs2 : Reg) : Statement (.sll rd rs1 rs2) := (encodeR_mask ..).trans rfl
theorem xor (rd rs1 rs2 : Reg) : Statement (.xor rd rs1 rs2) := (encodeR_mask ..).trans rfl
theorem srl (rd rs1 rs2 : Reg) : Statement (.srl rd rs1 rs2) := (encodeR_mask ..).trans rfl
theorem sra (rd rs1 rs2 : Reg) : Statement (.sra rd rs1 rs2) := (encodeR_mask ..).trans rfl
theorem or (rd rs1 rs2 : Reg) : Statement (.or rd rs1 rs2) := (encodeR_mask ..).trans rfl
theorem and (rd rs1 rs2 : Reg) : Statement (.and rd rs1 rs2) := (encodeR_mask ..).trans rfl
theorem addi (rd rs1 : Reg) (imm : BitVec 12) : Statement (.addi rd rs1 imm) := (encodeI_mask ..).trans rfl
theorem xori (rd rs1 : Reg) (imm : BitVec 12) : Statement (.xori rd rs1 imm) := (encodeI_mask ..).trans rfl
theorem ori (rd rs1 : Reg) (imm : BitVec 12) : Statement (.ori rd rs1 imm) := (encodeI_mask ..).trans rfl
theorem andi (rd rs1 : Reg) (imm : BitVec 12) : Statement (.andi rd rs1 imm) := (encodeI_mask ..).trans rfl
theorem slli (rd rs1 : Reg) (shamt : BitVec 5) : Statement (.slli rd rs1 shamt) := (encodeR_mask ..).trans rfl
theorem srli (rd rs1 : Reg) (shamt : BitVec 5) : Statement (.srli rd rs1 shamt) := (encodeR_mask ..).trans rfl
theorem srai (rd rs1 : Reg) (shamt : BitVec 5) : Statement (.srai rd rs1 shamt) := (encodeR_mask ..).trans rfl
theorem lw (rd rs1 : Reg) (imm : BitVec 12) : Statement (.lw rd rs1 imm) := (encodeI_mask ..).trans rfl
theorem sw (rs1 rs2 : Reg) (imm : BitVec 12) : Statement (.sw rs1 rs2 imm) := (encodeS_mask ..).trans rfl
theorem beq (rs1 rs2 : Reg) (off : BitVec 13) : Statement (.beq rs1 rs2 off) := (encodeB_mask ..).trans rfl
theorem bne (rs1 rs2 : Reg) (off : BitVec 13) : Statement (.bne rs1 rs2 off) := (encodeB_mask ..).trans rfl
theorem blt (rs1 rs2 : Reg) (off : BitVec 13) : Statement (.blt rs1 rs2 off) := (encodeB_mask ..).trans rfl
theorem bge (rs1 rs2 : Reg) (off : BitVec 13) : Statement (.bge rs1 rs2 off) := (encodeB_mask ..).trans rfl
theorem bltu (rs1 rs2 : Reg) (off : BitVec 13) : Statement (.bltu rs1 rs2 off) := (encodeB_mask ..).trans rfl
theorem bgeu (rs1 rs2 : Reg) (off : BitVec 13) : Statement (.bgeu rs1 rs2 off) := (encodeB_mask ..).trans rfl
theorem jal (rd : Reg) (bits : BitVec 20) : Statement (.jal rd bits) := (encodeJ_mask ..).trans rfl
theorem print (rd : Reg) : Statement (.print rd) := (encodeJ_ioMask ..).trans rfl
theorem input (rd : Reg) : Statement (.input rd) := (encodeJ_ioMask ..).trans rfl
theorem halt : Statement .halt := rfl

end Sys2Proof.Laws.TableRow
end

