-- ==== Sys2Proof/Laws/Run.lean ====
section
/-! SUPPORT. Runs of many steps, from what one step does: the induction is here once. -/

namespace Sys2Proof.Laws

variable (M : Host.Core)

/-- A state that steps to itself stays for any number of steps. -/
theorem run_of_fixed {s : M.State} (h : M.step s = .next s) (k : Nat) : M.run k s = .next s := by
  induction k with
  | zero => rfl
  | succ k ih => rw [Host.Core.run.eq_2, h]; exact ih

/-- What every step keeps, every run keeps. -/
theorem run_keeps {P : M.State → Prop} (hstep : ∀ s t, P s → M.step s = .next t → P t) {s t : M.State} (hs : P s)
    (k : Nat) (h : M.run k s = .next t) : P t := by
  induction k generalizing s with
  | zero => rw [Host.Core.run.eq_1] at h; cases h; exact hs
  | succ k ih =>
    rw [Host.Core.run.eq_2] at h
    split at h
    · next s' hs' => exact ih (hstep s s' hs hs') h
    · cases h
    · cases h

end Sys2Proof.Laws
end

