-- ==== Sys2Proof/Tests/Slice0.lean ====
section
/-! SUPPORT. Tests. Expected values are those of 95_test_vectors.md (the vector is named beside each) or worked from
the rule cited; the last part holds a witness for the hypotheses of every statement. -/

namespace Sys2Proof.Tests

open Sys2Proof Sys2Proof.Machine

/-! ### Helpers: a small state and one step -/

/-- Reset with registers, pc and memory bytes set. -/
def mk (regs : List (Reg × Word)) (pc : Word) (bytes : List (Nat × Byte)) : State :=
  let s := regs.foldl (fun s x => s.setReg x.1 x.2) State.reset
  { s with pc := pc, mem := bytes.foldl (fun m x => m.writeByte x.1 x.2) [] }

/-- One step of `s` on the word `w` placed at its pc. -/
def on (s : State) (w : Nat) : Option State :=
  match step (s.withFetchWord 32 w) with
  | .next t => some t
  | .fault _ => none
  | .refused _ => none

/-- Register 3 and the pc after a step at pc 0 with x1 = `a`, x2 = `b`. -/
def x3 (a b : Word) (w : Nat) : Option (Word × Word) :=
  (on (mk [(1, a), (2, b)] 0 []) w).map fun t => (t.getReg 3, t.pc)

/-- The running flag, the pc and the halt record after a step. -/
def haltOf (s : State) (w : Nat) : Option (Bool × Word × HaltRecord) :=
  (on s w).map fun t => (t.running, t.pc, t.haltRec)

/-! ### WellFormed: an odd branch displacement is refused, for each branch (30_encoding.md R85) -/

theorem test_wf_beq : ¬ WellFormed (.beq 1 2 7) := by decide
theorem test_wf_bne : ¬ WellFormed (.bne 1 2 1) := by decide
theorem test_wf_blt : ¬ WellFormed (.blt 1 2 0x1FFF) := by decide
theorem test_wf_bge : ¬ WellFormed (.bge 1 2 3) := by decide
theorem test_wf_bltu : ¬ WellFormed (.bltu 1 2 0xFFF) := by decide
theorem test_wf_bgeu : ¬ WellFormed (.bgeu 1 2 5) := by decide
theorem test_wf_even : WellFormed (.beq 1 2 0x1FFE) ∧ WellFormed (.addi 0 0 1) := by decide

/-! ### Decoding (95_test_vectors.md section 2) -/

/-- DEC-11 to DEC-16. -/
theorem test_decode_aluR :
    decodeVariant 0x002081B3 = .aluR .add 3 1 2 ∧ decodeVariant 0x402081B3 = .aluR .sub 3 1 2 ∧
    decodeVariant 0x002021B3 = .illegal .illegalFunct ∧ decodeVariant 0x022081B3 = .illegal .illegalFunct ∧
    decodeVariant 0x202081B3 = .illegal .illegalFunct ∧ decodeVariant 0x402091B3 = .illegal .illegalFunct := by
  decide

/-- The words of the examples of 40_alu.md R162 to R167. -/
theorem test_decode_aluR_more :
    decode 0x002091B3 = .instr (.sll 3 1 2) ∧ decode 0x0020C1B3 = .instr (.xor 3 1 2) ∧
    decode 0x0020D1B3 = .instr (.srl 3 1 2) ∧ decode 0x4020D1B3 = .instr (.sra 3 1 2) ∧
    decode 0x0020E1B3 = .instr (.or 3 1 2) ∧ decode 0x0020F1B3 = .instr (.and 3 1 2) := by
  decide

/-- DEC-17 to DEC-25. -/
theorem test_decode_aluI :
    decodeVariant 0xFFF00093 = .aluI .add 1 0 (-1) ∧ decodeVariant 0x7FF00093 = .aluI .add 1 0 2047 ∧
    decodeVariant 0x80000093 = .aluI .add 1 0 (-2048) ∧ decodeVariant 0x00002013 = .illegal .illegalFunct ∧
    decodeVariant 0x01F09193 = .aluI .sll 3 1 31 ∧ decodeVariant 0x41F09193 = .illegal .illegalFunct ∧
    decodeVariant 0x4040D193 = .aluI .sra 3 1 1028 ∧ decodeVariant 0x8040D193 = .illegal .illegalFunct ∧
    decodeVariant 0x0200D193 = .illegal .illegalFunct := by
  decide

/-- The words of the examples of 40_alu.md R171 to R173 and R175. -/
theorem test_decode_aluI_more :
    decode 0xFFF0C193 = .instr (.xori 3 1 (-1)) ∧ decode 0x8000E193 = .instr (.ori 3 1 (-2048)) ∧
    decode 0x0FF0F193 = .instr (.andi 3 1 255) ∧ decode 0x0040D193 = .instr (.srli 3 1 4) := by
  decide

/-- DEC-26 to DEC-31. -/
theorem test_decode_loadStore :
    decodeVariant 0x10002183 = .lw 3 0 256 ∧ decodeVariant 0x10003183 = .illegal .illegalFunct ∧
    decodeVariant 0x80002183 = .lw 3 0 (-2048) ∧ decodeVariant 0x10202023 = .sw 0 2 256 ∧
    decodeVariant 0xFE202FA3 = .sw 0 2 (-1) ∧ decodeVariant 0x10201023 = .illegal .illegalFunct := by
  decide

/-- DEC-32 to DEC-38. -/
theorem test_decode_branch :
    decodeVariant 0x00628463 = .branch .eq 5 6 8 ∧ decodeVariant 0xFE000EE3 = .branch .eq 0 0 (-4) ∧
    decodeVariant 0x7E000FE3 = .branch .eq 0 0 4094 ∧ decodeVariant 0x80000063 = .branch .eq 0 0 (-4096) ∧
    decodeVariant 0x00000163 = .branch .eq 0 0 2 ∧ decodeVariant 0x00002063 = .illegal .illegalFunct ∧
    decodeVariant 0x00003063 = .illegal .illegalFunct := by
  decide

/-- The words of the examples of 42_control.md R222 to R226. -/
theorem test_decode_branch_more :
    decodeVariant 0xFE009CE3 = .branch .ne 1 0 (-8) ∧ decodeVariant 0x0020C463 = .branch .lt 1 2 8 ∧
    decodeVariant 0x0020D463 = .branch .ge 1 2 8 ∧ decodeVariant 0x0020E463 = .branch .ltu 1 2 8 ∧
    decodeVariant 0x0020F463 = .branch .geu 1 2 8 := by
  decide

/-- DEC-39 and DEC-40: the displacement is JAL_OFFSET of the word itself. -/
theorem test_decode_jal :
    decodeVariant 0x0000006F = .jal 0 (Config.jalOffset 0x0000006F) ∧
    decodeVariant 0x000000EF = .jal 1 (Config.jalOffset 0x000000EF) := ⟨rfl, rfl⟩

/-- DEC-1 to DEC-10 and DEC-41 to DEC-46. -/
theorem test_decode_system :
    decodeVariant 0x00000000 = .halt ∧ decodeVariant 0x00000080 = .illegal .unknownOpcode ∧
    decodeVariant 0x80000000 = .illegal .unknownOpcode ∧ decodeVariant 0xFFFFFFFF = .illegal .unknownOpcode ∧
    decodeVariant 0x00000037 = .illegal .unknownOpcode ∧ decodeVariant 0x00000017 = .illegal .unknownOpcode ∧
    decodeVariant 0x00008067 = .illegal .unknownOpcode ∧ decodeVariant 0x0000000F = .illegal .unknownOpcode ∧
    decodeVariant 0x00000073 = .illegal .unknownOpcode ∧ decodeVariant 0x00100073 = .illegal .unknownOpcode ∧
    decodeVariant 0x0000008B = .print 1 ∧ decodeVariant 0x00000F8B = .print 31 ∧
    decodeVariant 0x0000108B = .illegal .illegalFunct ∧ decodeVariant 0x0000010C = .input 2 ∧
    decodeVariant 0x8000010C = .illegal .illegalFunct ∧ decodeVariant 0x0000000B = .print 0 := by
  decide

/-- The raw fields and immediates of `sw x2, -1(x0)` (R81, R91), and the host's numbering of a word's bits. -/
theorem test_decoderOutputs :
    (decoderOutputs 0xFE202FA3).rs2 = 2 ∧ (decoderOutputs 0xFE202FA3).funct7 = 0x7F ∧
    (decoderOutputs 0xFE202FA3).immS = -1 ∧ decodeTableWord 32 0x002081B3 = some (.add 3 1 2) ∧
    decodeTableWord 32 0x00000080 = none := by
  decide

/-- The encoder on words of 95_test_vectors.md section 8. -/
theorem test_encode :
    encode (.addi 1 0 5) = 0x00500093 ∧ encode (.bne 1 0 (-8)) = 0xFE009CE3 ∧ encode (.sw 0 2 256) = 0x10202023 ∧
    encode (.srai 3 1 4) = 0x4040D193 ∧ encode (.print 3) = 0x0000018B ∧ encode (.jal 1 0) = 0x000000EF := by
  decide

/-! ### ALU (95_test_vectors.md section 3, 40_alu.md examples); the word names x3, x1, x2 -/

/-- R160's example and ALU-1. -/
theorem test_add : x3 0xFFFFFFFF 1 0x002081B3 = some (0, 4) ∧ x3 0x7FFFFFFF 1 0x002081B3 = some (0x80000000, 4) := by
  decide
/-- ALU-4 and R161's example. -/
theorem test_sub : x3 0x80000000 1 0x402081B3 = some (0x7FFFFFFF, 4) ∧ x3 0 1 0x402081B3 = some (0xFFFFFFFF, 4) := by
  decide
/-- ALU-9 and R162's example. -/
theorem test_sll : x3 1 32 0x002091B3 = some (1, 4) ∧ x3 1 33 0x002091B3 = some (2, 4) := by decide
/-- ALU-19. -/
theorem test_xor : x3 0xFFFFFFFF 0x12345678 0x0020C1B3 = some (0xEDCBA987, 4) := by decide
/-- ALU-12 and ALU-14. -/
theorem test_srl : x3 0xFFFFFFFF 32 0x0020D1B3 = some (0xFFFFFFFF, 4) ∧ x3 0x80000000 63 0x0020D1B3 = some (1, 4) := by
  decide
/-- ALU-15 and ALU-17. -/
theorem test_sra : x3 0x7FFFFFFF 31 0x4020D1B3 = some (0, 4) ∧ x3 0x80000000 4 0x4020D1B3 = some (0xF8000000, 4) := by
  decide
/-- R166's example. -/
theorem test_or : x3 0xF0 0x0F 0x0020E1B3 = some (0xFF, 4) := by decide
/-- R167's example. -/
theorem test_and : x3 0xF0 0x3C 0x0020F1B3 = some (0x30, 4) := by decide
/-- ALU-33: rd = rs1 = rs2 reads the old value (`add x1, x1, x1`). -/
theorem test_add_same : (on (mk [(1, 0x80000000)] 0 []) 0x001080B3).map (·.getReg 1) = some 0 := by decide
/-- ALU-34: x0 is writable. -/
theorem test_addi_x0 : (on State.reset 0x00500013).map (·.getReg 0) = some 5 := by decide
/-- ALU-24: `addi x3, x1, -1`. -/
theorem test_addi : x3 0x80000000 0 0xFFF08193 = some (0x7FFFFFFF, 4) := by decide
/-- R171's example. -/
theorem test_xori : x3 0x12345678 0 0xFFF0C193 = some (0xEDCBA987, 4) := by decide
/-- R172's example. -/
theorem test_ori : x3 0 0 0x8000E193 = some (0xFFFFF800, 4) := by decide
/-- R173's example. -/
theorem test_andi : x3 0x12345678 0 0x0FF0F193 = some (0x78, 4) := by decide
/-- R174's example. -/
theorem test_slli : x3 3 0 0x01F09193 = some (0x80000000, 4) := by decide
/-- R175's example. -/
theorem test_srli : x3 0xF0000000 0 0x0040D193 = some (0x0F000000, 4) := by decide
/-- R176's example, and ALU-31 (`srai x3, x1, 31`). -/
theorem test_srai : x3 0xF0000000 0 0x4040D193 = some (0xFF000000, 4) ∧ x3 0x80000000 0 0x41F0D193 = some (0xFFFFFFFF, 4) := by
  decide
/-- Only `rd` changes: x1 and x2 stay after `add x3, x1, x2` (10_state.md R25). -/
theorem test_add_frame : (on (mk [(1, 7), (2, 9)] 0 []) 0x002081B3).map (fun t => (t.getReg 1, t.getReg 2)) = some (7, 9) := by
  decide

/-! ### Loads and stores (section 4) -/

/-- LS-2 and LS-10: `lw x1, 0(x1)` takes the address from the old x1. -/
theorem test_lw :
    (on (mk [] 0 [(256, 0x11), (257, 0x22), (258, 0x33), (259, 0x44)]) 0x10002183).map (·.getReg 3) = some 0x11223344 ∧
    (on (mk [(1, 256)] 0 [(258, 1)]) 0x0000A083).map (·.getReg 1) = some 0x100 := by
  decide
/-- LS-4 with the word of LS-4 itself at 0: ea wraps to 0, and the load sees the fetched word byte-reversed (R58). -/
theorem test_lw_wrap : (on (mk [(1, 0xFFFFFFFC)] 0 []) 0x0040A183).map (·.getReg 3) = some 0x83A14000 := by decide
/-- LS-6: the last byte is outside memory. -/
theorem test_lw_fault :
    haltOf (mk [(1, 65533)] 0 []) 0x0000A183 = some (false, 0, ⟨5, 0, 0x0000A183, 0x0000FFFD⟩) := by decide
/-- LS-1 and LS-9: big-endian, at an odd address too. -/
theorem test_sw :
    (on (mk [(2, 0x11223344)] 0 []) 0x10202023).map (fun t => (t.mem.readBytes 256 4, t.pc)) = some ([0x11, 0x22, 0x33, 0x44], 4) ∧
    (on (mk [(1, 0xAABBCCDD)] 0 []) 0x001020A3).map (fun t => t.mem.readBytes 1 4) = some [0xAA, 0xBB, 0xCC, 0xDD] := by
  decide
/-- LS-8: `sw x2, -1(x0)`. -/
theorem test_sw_fault : haltOf State.reset 0xFE202FA3 = some (false, 0, ⟨5, 0, 0xFE202FA3, 0xFFFFFFFF⟩) := by decide

/-! ### Control transfer (section 5) -/

/-- CT-1 and CT-2. -/
theorem test_beq :
    (on (mk [(5, 3), (6, 3)] 8 []) 0x00628463).map (·.pc) = some 16 ∧
    (on (mk [(5, 3), (6, 4)] 8 []) 0x00628463).map (·.pc) = some 12 := by decide
/-- CT-6: a wrapped target is no fault at the branch. -/
theorem test_beq_wrap : haltOf State.reset 0x80000063 = some (true, 0xFFFFF000, ⟨0, 0, 0, 0⟩) := by decide
/-- CT-3 and CT-5: x0 is compared by its value. -/
theorem test_bne :
    (on (mk [(1, 2)] 16 []) 0xFE009CE3).map (·.pc) = some 8 ∧
    (on (mk [(1, 7), (0, 7)] 16 []) 0xFE009CE3).map (·.pc) = some 20 := by decide

/-- The state of `mk` under EXT_BRANCH = rv32i. -/
def rv (a b : Word) : State := { mk [(1, a), (2, b)] 0 [] with extBranch := .rv32i }

/-- CT-9 and CT-10. -/
theorem test_blt :
    haltOf State.reset 0x0020C463 = some (false, 0, ⟨3, 0, 0x0020C463, 0⟩) ∧
    (on (rv 0xFFFFFFFF 0) 0x0020C463).map (·.pc) = some 8 := by decide
/-- CT-12, and the fault under `reject` (R224). -/
theorem test_bge :
    (on (rv 0x80000000 0x80000000) 0x0020D463).map (·.pc) = some 8 ∧
    haltOf State.reset 0x0020D463 = some (false, 0, ⟨3, 0, 0x0020D463, 0⟩) := by decide
/-- CT-11, and the fault under `reject` (R225). -/
theorem test_bltu :
    (on (rv 0xFFFFFFFF 0) 0x0020E463).map (·.pc) = some 4 ∧
    haltOf State.reset 0x0020E463 = some (false, 0, ⟨3, 0, 0x0020E463, 0⟩) := by decide
/-- CT-13, and the fault under `reject` (R226). -/
theorem test_bgeu :
    (on (rv 1 0xFFFFFFFF) 0x0020F463).map (·.pc) = some 4 ∧
    haltOf State.reset 0x0020F463 = some (false, 0, ⟨3, 0, 0x0020F463, 0⟩) := by decide
/-- CT-14 without assuming a displacement: x1 = 8 and pc = 4 + JAL_OFFSET(word). -/
theorem test_jal :
    (on { State.reset with pc := 4 } 0x000000EF).map (fun t => (t.getReg 1, t.pc)) =
      some (8, 4 + Config.jalOffset 0x000000EF) := rfl

/-! ### Halt and host I/O (section 6) -/

/-- SYS-1. -/
theorem test_halt : haltOf { State.reset with pc := 16 } 0 = some (false, 16, ⟨0, 16, 0, 0⟩) := by decide
/-- SYS-7: a step in HALTED changes nothing. -/
theorem test_halted_step : (on { State.reset with running := false } 0x00500093).map (·.getReg 1) = some 0 := by decide
/-- SYS-4, and the next pc. -/
theorem test_print :
    (on (mk [(0, 7)] 0 []) 0x0000000B).map (fun t => (t.output, t.pc)) = some ([.print 0 7], 4) := by decide
/-- SYS-2 and SYS-3: the host's text. -/
theorem test_print_text :
    renderPrint 1 0xFFFFFFFF = "x1 = -1\n" ∧ renderPrint 31 0x80000000 = "x31 = -2147483648\n" := by decide
/-- SYS-5. -/
theorem test_input :
    (on { State.reset with inputs := [0xFFFFFFF9] } 0x0000010C).map (fun t => (t.getReg 2, t.pc, t.output, t.inputs)) =
      some (0xFFFFFFF9, 4, [.inputPrompt 2], []) := by decide
/-- SYS-6: held, RUNNING at the same pc, no record. -/
theorem test_input_held :
    (on State.reset 0x0000010C).map (fun t => (t.running, t.pc, t.output)) = some (true, 0, []) := by decide

/-! ### Faults (section 7) -/

/-- FLT-1 and FLT-2. -/
theorem test_unknownOpcode :
    haltOf State.reset 0x00000037 = some (false, 0, ⟨1, 0, 0x00000037, 0⟩) ∧
    haltOf { State.reset with pc := 8 } 0x00000080 = some (false, 8, ⟨1, 8, 0x00000080, 0⟩) := by decide
/-- FLT-3 and FLT-4. -/
theorem test_illegalFunct :
    haltOf { State.reset with pc := 4 } 0x002021B3 = some (false, 4, ⟨2, 4, 0x002021B3, 0⟩) ∧
    haltOf State.reset 0x0000108B = some (false, 0, ⟨2, 0, 0x0000108B, 0⟩) := by decide
/-- FLT-5 and FLT-6. -/
theorem test_fetch_fault :
    haltOf { State.reset with pc := 65536 } 0 = some (false, 65536, ⟨4, 0x00010000, 0, 0⟩) ∧
    haltOf { State.reset with pc := 65533 } 0 = some (false, 65533, ⟨4, 0x0000FFFD, 0, 0⟩) := by decide
/-- FLT-7: the last in-range fetch. -/
theorem test_fetch_last : haltOf { State.reset with pc := 65532 } 0 = some (false, 65532, ⟨0, 65532, 0, 0⟩) := by decide
/-- CT-7's next fetch: little-endian at an address that is not a multiple of 4 (R60). -/
theorem test_fetch_unaligned :
    fetch (mk [] 2 [(2, 0x93), (3, 0x00), (4, 0x50), (5, 0x00)]) = some 0x00500093 := by decide
/-- The canonical form: writing 0 removes the entry, and addresses stay sorted. -/
theorem test_memory_canonical :
    (Memory.writeBytes [] 8 [1, 2]).writeBytes 4 [3] = [(4, 3), (8, 1), (9, 2)] ∧
    (Memory.writeBytes [] 8 [1, 2]).writeByte 8 0 = [(9, 2)] := by decide

/-! ### The host (70_reset_and_hazards.md) and the assembler (section 8) -/

/-- A machine in the host's hands just after reset. -/
def fresh : Session := ⟨State.reset, .afterReset⟩

/-- R321: bytes from offset 0, the rest 0. -/
theorem test_load :
    (startUp [0x93, 0x00, 0x50] fresh).map (fun y => (y.machine.mem.readBytes 0 5, y.machine.pc, y.phase)) =
      some ([0x93, 0, 0x50, 0, 0], 0, .started) := by decide
/-- R292: no load once the machine runs, a held `input` included; no run before a load; no value before the run. -/
theorem test_host_when :
    hostLoad [0] ⟨State.reset, .started⟩ = none ∧
    (startUp [0x0C, 0x01, 0, 0] fresh).bind (hostLoad [0]) = none ∧
    hostRun fresh = none ∧ blockStep fresh = none ∧
    (hostLoad [0x0C, 0x01, 0, 0] fresh).bind (supplyInput 7) = none := by decide
/-- R292: SYS-5's `input` loaded, run, held, supplied and completed. -/
theorem test_host_input :
    (startUp [0x0C, 0x01, 0, 0] fresh).bind blockStep = none ∧
    (((startUp [0x0C, 0x01, 0, 0] fresh).bind (supplyInput 0xFFFFFFF9)).bind blockStep).map
      (fun y => (y.machine.getReg 2, y.machine.pc)) = some (0xFFFFFFF9, 4) := by decide
/-- P1's image. -/
theorem test_asm_p1 :
    Asm.assemble "addi x1,x0,5\nprint x1\nhalt" = .ok [0x93, 0x00, 0x50, 0x00, 0x8b, 0, 0, 0, 0, 0, 0, 0] := by decide
/-- P3's words from `loop` to the `sw`: a backward label, and `sw`'s operand order. -/
theorem test_asm_p3 :
    (Asm.assembleInstrs "addi x1, x0, 5\naddi x2, x0, 0\nloop: add x2, x2, x1\naddi x1, x1, -1\nbne x1, x0, loop\nsw x2, 256(x0)".toList).map
      (fun is => (is.drop 4).map encode) = .ok [0xFE009CE3, 0x10202023] := by decide
/-- L1-7: a = 0, b = 0, c = 4. -/
theorem test_asm_labels :
    Asm.resolveLabels (Asm.linesOf "a:\nb: addi x1, x0, 1\n\nc:\nhalt".toList) =
      .ok [("a".toList, 0), ("b".toList, 0), ("c".toList, 4)] := by decide
/-- R123, R124, R126, R130 to R132: an ABI name, an index above 31, a pseudo-instruction, `jal`, an immediate out of
range, an undefined and a duplicate label. -/
theorem test_asm_errors :
    Asm.assemble "add sp, x1, x2" = .error (1, .malformed) ∧ Asm.assemble "add x1, x32, x2" = .error (1, .registerOutOfRange) ∧
    Asm.assemble "halt\nnop" = .error (2, .malformed) ∧ Asm.assemble "jal x1, 8" = .error (1, .malformed) ∧
    Asm.assemble "addi x1, x0, 2048" = .error (1, .immediateOutOfRange) ∧
    Asm.assemble "beq x0, x0, far" = .error (1, .undefinedLabel) ∧
    Asm.assemble "a: halt\na: halt" = .error (2, .duplicateLabel) := by decide

/-! ### Witnesses: states and operands that meet each statement's hypotheses -/

/-- Reset with a word at its pc. -/
def holding (w : Nat) : State := State.reset.withFetchWord 32 w

/-- A halted state. -/
def halted : State := { State.reset with running := false }

theorem witness_HostResetFromAnyState : halted.running = false ∧ ∃ t, step halted = .next t := ⟨rfl, _, rfl⟩
theorem witness_LoadCopiesImage_long : 65536 < (List.replicate 65537 (0 : Byte)).length := by
  rw [List.length_replicate]; decide
theorem witness_LoadCopiesImage_short : ([1, 2] : List Byte).length ≤ 65536 := by decide
theorem witness_LoadCopiesImage_full : (List.replicate 65536 (0 : Byte)).length ≤ 65536 := by
  rw [List.length_replicate]
theorem witness_LoadCopiesImage_afterReset : fresh.phase = .afterReset := rfl
theorem witness_SecondLoadCopiesOver :
    ({ fresh with phase := .loaded } : Session).phase = .loaded ∧ ([1, 2] : List Byte).length ≤ 65536 := by decide
/-- A machine held in its first instruction, an `input`. -/
def waiting : Session := ⟨holding 0x0000010C, .started⟩
theorem witness_HostActsOnlyWhenAllowed_load :
    fresh.phase = .afterReset ∧ (hostMove (.load [1]) fresh).isSome = true ∧
    (hostMove (.load [2]) { fresh with phase := .loaded }).isSome = true := by decide
theorem witness_HostActsOnlyWhenAllowed_run : (hostMove .run { fresh with phase := .loaded }).isSome = true := by decide
theorem witness_HostActsOnlyWhenAllowed_supply :
    waiting.phase = .started ∧ inputHeld waiting.machine = true ∧ (hostMove (.supplyInput 5) waiting).isSome = true := by
  decide
theorem witness_HostActsOnlyWhenAllowed_step :
    inputHeld State.reset = false ∧ (blockStep { fresh with phase := .started }).isSome = true := by decide
theorem witness_HostHasNoOtherMove :
    waiting.phase = .started ∧ hostMove .reset waiting = some (hostReset waiting) ∧
    ∃ y, hostMove (.supplyInput 5) waiting = some y := ⟨rfl, rfl, _, rfl⟩
theorem witness_SessionKeepsInvariant : SessionInv fresh ∧ ∃ y, hostMove (.load [1]) fresh = some y :=
  ⟨⟨⟨by decide, fun _ => rfl, fun h => absurd h (by decide)⟩, fun _ => rfl, fun h => absurd h (by decide)⟩, _, rfl⟩
theorem witness_ImageWordFetchedUnchanged : 4 * ([0x00500093, 0] : List Word).length ≤ 65536 ∧ 1 < ([0x00500093, 0] : List Word).length := by
  decide
theorem witness_StepRunsDecodedInstruction :
    (holding 0x002081B3).running = true ∧ (holding 0x002081B3).pc.toNat ≤ 65532 ∧
    decode ((holding 0x002081B3).mem.readByte 3 ++ (holding 0x002081B3).mem.readByte 2 ++
      (holding 0x002081B3).mem.readByte 1 ++ (holding 0x002081B3).mem.readByte 0) = .instr (.add 3 1 2) := by decide
theorem witness_Fetch_inside : ({ State.reset with pc := 65532 } : State).pc.toNat ≤ 65532 := by decide
theorem witness_Fetch_outside : 65532 < ({ State.reset with pc := 65533 } : State).pc.toNat := by decide
theorem witness_FetchOutsideMemoryHalts :
    ({ State.reset with pc := 65533 } : State).running = true ∧ 65532 < ({ State.reset with pc := 65533 } : State).pc.toNat := by
  decide
theorem witness_HaltedIsFinal : halted.running = false := rfl
theorem witness_DecodeOfEncode : WellFormed (.bgeu 31 31 0x1000) ∧ WellFormed (.lw 31 31 0x800) ∧ WellFormed (.jal 31 0xFFFFF) := by
  decide
theorem witness_EncodeOfDecode : decode 0xFE000EE3 = .instr (.beq 0 0 (-4)) := by decide
theorem witness_UnknownOpcodeWords :
    (holding 0x80).running = true ∧ fetch (holding 0x80) = some 0x80 ∧ decode 0x80 = .illegal .unknownOpcode := by decide
theorem witness_IllegalFunctWords :
    (holding 0x108B).running = true ∧ fetch (holding 0x108B) = some 0x108B ∧ decode 0x108B = .illegal .illegalFunct := by decide
theorem witness_RegisterRegisterResults :
    (0x002081B3 : Word) &&& 0xFE00707F = 0x00000033 ∧ (0x402081B3 : Word) &&& 0xFE00707F = 0x40000033 ∧
    (0x002091B3 : Word) &&& 0xFE00707F = 0x00001033 ∧ (0x0020C1B3 : Word) &&& 0xFE00707F = 0x00004033 ∧
    (0x0020D1B3 : Word) &&& 0xFE00707F = 0x00005033 ∧ (0x4020D1B3 : Word) &&& 0xFE00707F = 0x40005033 ∧
    (0x0020E1B3 : Word) &&& 0xFE00707F = 0x00006033 ∧ (0x0020F1B3 : Word) &&& 0xFE00707F = 0x00007033 := by decide
theorem witness_RegisterImmediateResults :
    (0xFFF00093 : Word) &&& 0x0000707F = 0x00000013 ∧ (0xFFF0C193 : Word) &&& 0x0000707F = 0x00004013 ∧
    (0x8000E193 : Word) &&& 0x0000707F = 0x00006013 ∧ (0x0FF0F193 : Word) &&& 0x0000707F = 0x00007013 := by decide
theorem witness_ShiftImmediateResults :
    (0x01F09193 : Word) &&& 0xFE00707F = 0x00001013 ∧ (0x0040D193 : Word) &&& 0xFE00707F = 0x00005013 ∧
    (0x4040D193 : Word) &&& 0xFE00707F = 0x40005013 := by decide
theorem witness_ShiftImmediateResults_illegal :
    fieldOpcode 0x41F09193 = 0x13 ∧ fieldFunct3 0x41F09193 = 1 ∧ fieldFunct7 0x41F09193 ≠ 0x00 := by decide
theorem witness_RegisterZeroIsOrdinary : State.reset.getReg 0 = 0 := by decide
theorem witness_LoadWordResult_encoding : (0x10002183 : Word) &&& 0x0000707F = 0x00002003 := by decide
theorem witness_LoadWordResult_inside : ((mk [(1, 65532)] 0 []).getReg 1 + (0 : BitVec 12).signExtend 32).toNat ≤ 65532 := by decide
theorem witness_LoadWordResult_outside : 65532 < ((mk [(1, 65532)] 0 []).getReg 1 + (1 : BitVec 12).signExtend 32).toNat := by decide
theorem witness_StoreWordEffect_encoding : (0x10202023 : Word) &&& 0x0000707F = 0x00002023 := by decide
theorem witness_StoreWordEffect_inside : ((mk [(1, 65534)] 0 []).getReg 1 + (-2 : BitVec 12).signExtend 32).toNat ≤ 65532 := by decide
theorem witness_StoreWordEffect_outside : 65532 < (State.reset.getReg 0 + (-1 : BitVec 12).signExtend 32).toNat := by decide
theorem witness_DataOutsideMemoryHalts_lw :
    (holding 0xFFF02183).running = true ∧ fetch (holding 0xFFF02183) = some 0xFFF02183 ∧
    decode 0xFFF02183 = .instr (.lw 3 0 (-1)) ∧ 65532 < ((holding 0xFFF02183).getReg 0 + (-1 : BitVec 12).signExtend 32).toNat := by
  decide
theorem witness_DataOutsideMemoryHalts_sw :
    (holding 0xFE202FA3).running = true ∧ fetch (holding 0xFE202FA3) = some 0xFE202FA3 ∧
    decode 0xFE202FA3 = .instr (.sw 0 2 (-1)) ∧ 65532 < ((holding 0xFE202FA3).getReg 0 + (-1 : BitVec 12).signExtend 32).toNat := by
  decide
theorem witness_StoreThenLoadReturnsValue :
    effectiveAddr (mk [(1, 65532)] 0 []) 1 0 = effectiveAddr (mk [(1, 65532)] 0 []) 1 0 ∧
    (effectiveAddr (mk [(1, 65532)] 0 []) 1 0).toNat ≤ 65532 := by decide
theorem witness_ByteOrdersDisagree : (65532 : Word).toNat ≤ 65532 := by decide
theorem witness_StoreSeenByNextFetch : (effectiveAddr State.reset 0 3).toNat ≤ 65532 := by decide
theorem witness_BeqBneTargets :
    (0x00628463 : Word) &&& 0x0000707F = 0x00000063 ∧ (0xFE009CE3 : Word) &&& 0x0000707F = 0x00001063 ∧
    State.reset.getReg 0 = State.reset.getReg 1 ∧ (mk [(1, 2)] 0 []).getReg 0 ≠ (mk [(1, 2)] 0 []).getReg 1 := by decide
theorem witness_ExtBranchesFollowParameter_encoding :
    (0x0020C463 : Word) &&& 0x0000707F = 0x00004063 ∧ (0x0020D463 : Word) &&& 0x0000707F = 0x00005063 ∧
    (0x0020E463 : Word) &&& 0x0000707F = 0x00006063 ∧ (0x0020F463 : Word) &&& 0x0000707F = 0x00007063 := by decide
theorem witness_ExtBranchesFollowParameter_reject : State.reset.extBranch = .reject := rfl
theorem witness_ExtBranchesFollowParameter_taken :
    (rv 0x80000000 1).extBranch = .rv32i ∧ ((rv 0x80000000 1).getReg 1).toInt < ((rv 0x80000000 1).getReg 2).toInt ∧
    ((rv 1 0x80000000).getReg 1).toInt ≥ ((rv 1 0x80000000).getReg 2).toInt ∧
    ((rv 1 0x80000000).getReg 1).toNat < ((rv 1 0x80000000).getReg 2).toNat ∧
    ((rv 0x80000000 1).getReg 1).toNat ≥ ((rv 0x80000000 1).getReg 2).toNat := by decide
theorem witness_ExtBranchesFollowParameter_notTaken :
    (rv 1 1).extBranch = .rv32i ∧ ¬ ((rv 1 1).getReg 1).toInt < ((rv 1 1).getReg 2).toInt ∧
    ¬ ((rv 0x80000000 1).getReg 1).toInt ≥ ((rv 0x80000000 1).getReg 2).toInt ∧
    ¬ ((rv 1 1).getReg 1).toNat < ((rv 1 1).getReg 2).toNat ∧
    ¬ ((rv 1 0x80000000).getReg 1).toNat ≥ ((rv 1 0x80000000).getReg 2).toNat := by decide
theorem witness_JumpLinksAndMoves : (0x000000EF : Word) &&& 0x0000007F = 0x0000006F := by decide
theorem witness_OnlyControlTransfersLeaveSequence :
    ∃ t, step (holding 0x00000463) = .next t ∧ t.pc ≠ (holding 0x00000463).pc ∧ t.pc ≠ (holding 0x00000463).pc + 4 :=
  ⟨_, rfl, by decide, by decide⟩
theorem witness_PrintEmitsRegister : (0x00000F8B : Word) &&& 0xFFFFF07F = 0x0000000B := by decide
theorem witness_InputTakesSuppliedValue :
    (0x0000010C : Word) &&& 0xFFFFF07F = 0x0000000C ∧ ({ State.reset with inputs := [5, 6] } : State).inputs = 5 :: [6] := by
  decide
theorem witness_HeldInputWaitsThenCompletes : inputHeld (holding 0x0000010C) = true := by decide
theorem witness_OutputOnlyAppended : ∃ t, step (holding 0x0000008B) = .next t := ⟨_, rfl⟩
theorem witness_FaultsArePrecise :
    (holding 0x80).running = true ∧ ∃ t, step (holding 0x80) = .next t ∧ t.running = false := ⟨by decide, _, rfl, by decide⟩
theorem witness_HaltExactlyWhenCauseApplies : (holding 0x80).running = true ∧ ∃ t, step (holding 0x80) = .next t :=
  ⟨by decide, _, rfl⟩
theorem witness_CauseApplies :
    CauseApplies State.reset 0 0 0 ∧ CauseApplies (holding 0x80) 1 0x80 0 ∧ CauseApplies (holding 0x108B) 2 0x108B 0 ∧
    CauseApplies (holding 0x0020C463) 3 0x0020C463 0 ∧ CauseApplies { State.reset with pc := 65533 } 4 0 0 ∧
    CauseApplies (holding 0xFFF02183) 5 0xFFF02183 0xFFFFFFFF :=
  ⟨.inl ⟨rfl, rfl, rfl, 0, by decide, by decide⟩, .inr (.inl (by decide)), .inr (.inr (.inl (by decide))),
    .inr (.inr (.inr (.inl ⟨rfl, rfl, by decide, rfl, .lt, 1, 2, 8, by decide, by decide, by decide⟩))),
    .inr (.inr (.inr (.inr (.inl (by decide))))),
    .inr (.inr (.inr (.inr (.inr ⟨rfl, by decide, by decide, 0, -1, by decide, .inl ⟨3, by decide⟩⟩))))⟩
theorem witness_EveryStepAnswersNextState : halted.running = false ∧ inputHeld (holding 0x0000010C) = true := by decide
theorem witness_StepKeepsInvariant : Inv State.reset ∧ ∃ t, step State.reset = .next t :=
  ⟨⟨by decide, fun _ => rfl, fun h => absurd h (by decide)⟩, _, rfl⟩
theorem witness_OnlyStoresChangeMemory :
    ∃ t, step ((holding 0x10202023).setReg 2 0x11223344) = .next t ∧
      t.mem.readByte 256 ≠ ((holding 0x10202023).setReg 2 0x11223344).mem.readByte 256 := ⟨_, rfl, by decide⟩
theorem witness_OnlyNamedRegistersMatter :
    (∃ t, exec (.add 3 1 2) State.reset = .next t) ∧ destReg (.add 3 1 2) ≠ some 4 ∧ (4 : Reg) ∉ srcRegs (.add 3 1 2) :=
  ⟨⟨_, rfl⟩, by decide, by decide⟩
theorem witness_ParameterAndChannelFrame : ∃ t, step { holding 0x0000010C with inputs := [5] } = .next t := ⟨_, rfl⟩
theorem witness_LabelAddressCountsInstructions :
    Asm.resolveLabels (Asm.linesOf "halt\nc: halt".toList) = .ok [("c".toList, 4)] ∧
    ∃ h : 1 < (Asm.linesOf "halt\nc: halt".toList).length, (Asm.linesOf "halt\nc: halt".toList)[1].label = some "c".toList := by
  decide
theorem witness_BranchOffsetFromLabel :
    Asm.parseInt "c".toList = none ∧ ([] : Asm.Labels).lookup "c".toList = none ∧
    ([("c".toList, 4094)] : Asm.Labels).lookup "c".toList = some 4094 ∧
    ((4094 : Nat) : Int) - (0 : Nat) ≤ 4094 ∧ (((4094 : Nat) : Int) - (0 : Nat)) % 2 = 0 ∧
    4094 < ((4096 : Nat) : Int) - (0 : Nat) ∧ (((3 : Nat) : Int) - (0 : Nat)) % 2 ≠ 0 := by decide
theorem witness_AssembledLineDecodesBack :
    Asm.parseInstr [("c".toList, 8)] 4 (Asm.tokens "beq x5,x6,c".toList) = .ok (.beq 5 6 4) := by decide
theorem witness_ImageHasOneWordPerLine :
    Asm.assembleInstrs "a:\naddi x1,x0,5\nhalt".toList = .ok [.addi 1 0 5, .halt] ∧
    1 < ((Asm.linesOf "a:\naddi x1,x0,5\nhalt".toList).filter fun l => !l.body.isEmpty).length := by
  decide

end Sys2Proof.Tests
end

namespace Sys2Proof.Machine

/-! ### Register writes and the other updates of the state -/

section SetReg
variable (s : State) (r : Reg) (v : Word)

/-- Every register reads 0 after reset (10_state.md rule R40). -/
@[simp] theorem getReg_reset : State.reset.getReg r = 0 := by
  simp [State.reset, State.getReg]

/-- A register of a list reads the same whatever is written to a register outside the list. -/
theorem getReg_setReg_of_notMem {l : List Reg} {q : Reg} (hr : r ∉ l) (hq : q ∈ l) :
    (s.setReg r v).getReg q = s.getReg q :=
  getReg_setReg_other s r q v (ne_of_mem_of_not_mem hq hr)

/-- Writes to two different registers can be swapped. -/
theorem setReg_comm {q : Reg} (h : q ≠ r) (u : Word) :
    (s.setReg r v).setReg q u = (s.setReg q u).setReg r v := by
  have hne : r.toNat ≠ q.toNat := fun e => h (BitVec.eq_of_toNat_eq e.symm)
  simp [State.setReg, Vector.set_comm _ _ hne]

end SetReg

/-! ### What a step does to memory (R53, R65) -/

/-- A meaning leaves memory as it is, or is a `sw` that writes the stored register's bytes at its effective address. -/
theorem exec_mem {i : Instr} {s t : State} (h : exec i s = .next t) :
    t.mem = s.mem ∨ ∃ rs1 rs2 imm, i = .sw rs1 rs2 imm ∧
      t.mem = s.mem.writeBytes (effectiveAddr s rs1 imm).toNat (bytesBe (s.getReg rs2)) := by
  cases exec_shape h with
  | stores rs1 rs2 imm hi hr => exact .inr ⟨rs1, rs2, imm, hi, rfl⟩
  | _ => exact .inl rfl

/-- A step leaves memory as it is, or runs a `sw` that writes at its effective address. -/
theorem step_mem {s t : State} (h : step s = .next t) :
    t.mem = s.mem ∨ ∃ w rs1 rs2 imm, fetch s = some w ∧ decode w = .instr (.sw rs1 rs2 imm) ∧
      t.mem = s.mem.writeBytes (effectiveAddr s rs1 imm).toNat (bytesBe (s.getReg rs2)) := by
  obtain ⟨-, rfl⟩ | ⟨-, -, rfl⟩ | ⟨-, w, k, -, -, rfl⟩ | ⟨-, w, i, hf, hd, hx⟩ := step_cases h
  · exact .inl rfl
  · exact .inl rfl
  · exact .inl rfl
  · obtain hm | ⟨rs1, rs2, imm, rfl, hm⟩ := exec_mem hx
    · exact .inl hm
    · exact .inr ⟨w, rs1, rs2, imm, hf, hd, hm⟩

/-- A byte that a write of bytes changes is one of those written. -/
theorem mem_range_of_readByte_writeBytes_ne {m : Memory} {a b : Nat} {bs : List Byte}
    (h : (m.writeBytes a bs).readByte b ≠ m.readByte b) : a ≤ b ∧ b < a + bs.length := by
  by_contra hout
  exact h (readByte_writeBytes_outside m a bs b (by omega))

/-! ### What a step does to the pc (R26, R220, R227, R228) -/

/-- The instruction is a branch whose condition holds in `s`, or the jump, and `p` is its target. -/
def TransfersControl (i : Instr) (s : State) (p : Word) : Prop :=
  (∃ c rs1 rs2 off, variantOf i = .branch c rs1 rs2 off ∧
    condHolds c (s.getReg rs1) (s.getReg rs2) = true ∧ p = s.pc + off) ∨
  ∃ rd off, variantOf i = .jal rd off ∧ p = s.pc + off

/-- The pc `p` stays, is the next in sequence, or is the target of the instruction's transfer of control. -/
def PcFollows (i : Instr) (s : State) (p : Word) : Prop :=
  p = s.pc ∨ p = s.pc + 4 ∨ TransfersControl i s p

theorem pcFollows_branchOn {i : Instr} {c : Cond} {rs1 rs2 : Reg} {off : BitVec 13} {s t : State}
    (hi : variantOf i = .branch c rs1 rs2 (sext13 off)) (h : branchOn c rs1 rs2 off s = .next t) :
    PcFollows i s t.pc := by
  cases h
  split
  · next hc => exact .inr (.inr (.inl ⟨c, rs1, rs2, sext13 off, hi, hc, rfl⟩))
  · exact .inr (.inl rfl)

theorem pcFollows_extBranchOn {i : Instr} {w : Word} {c : Cond} {rs1 rs2 : Reg} {off : BitVec 13} {s t : State}
    (hi : variantOf i = .branch c rs1 rs2 (sext13 off)) (h : extBranchOn w c rs1 rs2 off s = .next t) :
    PcFollows i s t.pc := by
  unfold extBranchOn at h
  split at h
  · cases h; exact .inl rfl
  · exact pcFollows_branchOn hi h

/-- Where each instruction leaves the pc. -/
theorem exec_pcFollows {i : Instr} {s t : State} (h : exec i s = .next t) : PcFollows i s t.pc := by
  cases i with
  | beq | bne => exact pcFollows_branchOn rfl h
  | blt | bge | bltu | bgeu => exact pcFollows_extBranchOn rfl h
  | jal rd bits => cases h; exact .inr (.inr (.inr ⟨rd, _, rfl, rfl⟩))
  | lw rd rs1 imm =>
    simp only [exec, execLw] at h
    split at h
    · cases h; exact .inr (.inl rfl)
    · cases h; exact .inl rfl
  | sw rs1 rs2 imm =>
    simp only [exec, execSw] at h
    split at h
    · cases h; exact .inr (.inl rfl)
    · cases h; exact .inl rfl
  | input rd =>
    simp only [exec, execInput] at h
    split at h
    · cases h; exact .inl rfl
    · cases h; exact .inr (.inl rfl)
  | halt => cases h; exact .inl rfl
  | _ => cases h; exact .inr (.inl rfl)

/-! ### Registers an instruction names (R25) -/

/-- A register that is not the destination keeps its value. -/
theorem exec_getReg_of_ne_dest {i : Instr} {s t : State} {r : Reg} (h : exec i s = .next t)
    (hr : destReg i ≠ some r) : t.getReg r = s.getReg r := by
  have ne_of_dest {rd : Reg} (hd : destReg i = some rd) : r ≠ rd := fun e => hr (e ▸ hd)
  cases exec_shape h with
  | writes rd v p hd => exact getReg_setReg_other s rd r v (ne_of_dest hd)
  | takes rd v rest hi =>
    rw [getReg_completeInput, if_neg (ne_of_dest (hi ▸ rfl))]
  | _ => rfl

/-- The meaning `m` neither reads nor writes `x[r]`: a value put there beforehand stays there and changes nothing
else in the answer. -/
def Ignores (r : Reg) (m : State → Result) : Prop :=
  ∀ s t v, m s = .next t → m (s.setReg r v) = .next (t.setReg r v)

section Ignores
variable {r rd rs1 rs2 : Reg}

theorem effectiveAddr_setReg {l : List Reg} (hs : r ∉ l) (h1 : rs1 ∈ l) (s : State) (v : Word) (imm : BitVec 12) :
    effectiveAddr (s.setReg r v) rs1 imm = effectiveAddr s rs1 imm := by
  rw [effectiveAddr, getReg_setReg_of_notMem s r v hs h1, effectiveAddr]

theorem ignores_aluReg (op : AluOp) (hd : some rd ≠ some r) (hs : r ∉ [rs1, rs2]) :
    Ignores r (aluReg op rd rs1 rs2) := by
  intro s t v h
  cases h
  have h1 := getReg_setReg_of_notMem s r v hs (q := rs1) (by simp)
  have h2 := getReg_setReg_of_notMem s r v hs (q := rs2) (by simp)
  rw [aluReg, h1, h2, writeResult, setReg_comm s r v (by simpa using hd)]
  rfl

theorem ignores_aluImm (op : AluOp) (imm : Word) (hd : some rd ≠ some r) (hs : r ∉ [rs1]) :
    Ignores r (aluImm op rd rs1 imm) := by
  intro s t v h
  cases h
  have h1 := getReg_setReg_of_notMem s r v hs (q := rs1) (by simp)
  rw [aluImm, h1, writeResult, setReg_comm s r v (by simpa using hd)]
  rfl

theorem ignores_branchOn (c : Cond) (off : BitVec 13) (hs : r ∉ [rs1, rs2]) :
    Ignores r (branchOn c rs1 rs2 off) := by
  intro s t v h
  cases h
  have h1 := getReg_setReg_of_notMem s r v hs (q := rs1) (by simp)
  have h2 := getReg_setReg_of_notMem s r v hs (q := rs2) (by simp)
  rw [branchOn, h1, h2]
  split <;> rfl

theorem ignores_extBranchOn (w : Word) (c : Cond) (off : BitVec 13) (hs : r ∉ [rs1, rs2]) :
    Ignores r (extBranchOn w c rs1 rs2 off) := by
  intro s t v h
  unfold extBranchOn at h ⊢
  rw [setReg_extBranch]
  split at h
  · cases h; rfl
  · exact ignores_branchOn c off hs s t v h

theorem ignores_execLw (imm : BitVec 12) (hd : some rd ≠ some r) (hs : r ∉ [rs1]) :
    Ignores r (execLw rd rs1 imm) := by
  intro s t v h
  unfold execLw at h ⊢
  rw [effectiveAddr_setReg hs (by simp), setReg_comm s r v (by simpa using hd)]
  split at h
  · next hr => cases h; rw [if_pos hr]; rfl
  · next hr => cases h; rw [if_neg hr]; rfl

theorem ignores_execSw (imm : BitVec 12) (hs : r ∉ [rs1, rs2]) : Ignores r (execSw rs1 rs2 imm) := by
  intro s t v h
  have h2 := getReg_setReg_of_notMem s r v hs (q := rs2) (by simp)
  unfold execSw at h ⊢
  rw [effectiveAddr_setReg hs (by simp), h2]
  split at h
  · next hr => cases h; rw [if_pos hr]; rfl
  · next hr => cases h; rw [if_neg hr]; rfl

theorem ignores_execJal (bits : BitVec 20) (hd : some rd ≠ some r) : Ignores r (execJal rd bits) := by
  intro s t v h
  cases h
  rw [execJal, setReg_comm s r v (by simpa using hd)]
  rfl

theorem ignores_execPrint (hs : r ∉ [rd]) : Ignores r (execPrint rd) := by
  intro s t v h
  cases h
  rw [execPrint, getReg_setReg_of_notMem s r v hs (by simp)]
  rfl

/-- Completing an `input` and writing another register can be swapped. -/
theorem completeInput_setReg (hd : rd ≠ r) (u : Word) (rest : List Word) (s : State) (v : Word) :
    completeInput rd u rest (s.setReg r v) = (completeInput rd u rest s).setReg r v := by
  have hswap := setReg_comm (({ s with inputs := rest } : State).emit (.inputPrompt rd)) r v hd u
  exact congrArg State.advance hswap

theorem ignores_execInput (hd : some rd ≠ some r) : Ignores r (execInput rd) := by
  intro s t v h
  unfold execInput at h ⊢
  rw [setReg_inputs]
  split at h
  · cases h; rfl
  · cases h; rw [completeInput_setReg (by simpa using hd)]

theorem ignores_execHalt : Ignores r execHalt := by
  intro s t v h
  cases h
  rfl

end Ignores

/-- An instruction ignores every register that is neither its destination nor one of its sources. -/
theorem exec_ignores {i : Instr} {r : Reg} (hd : destReg i ≠ some r) (hs : r ∉ srcRegs i) : Ignores r (exec i) := by
  cases i with
  | add | sub | sll | xor | srl | sra | or | and => exact ignores_aluReg _ hd hs
  | addi | xori | ori | andi | slli | srli | srai => exact ignores_aluImm _ _ hd hs
  | lw => exact ignores_execLw _ hd hs
  | sw => exact ignores_execSw _ hs
  | beq | bne => exact ignores_branchOn _ _ hs
  | blt | bge | bltu | bgeu => exact ignores_extBranchOn _ _ _ hs
  | jal => exact ignores_execJal _ hd
  | print => exact ignores_execPrint hs
  | input => exact ignores_execInput hd
  | halt => exact ignores_execHalt

/-! ### The obligations -/

/-- Settles O30: a fetch fault, an illegal word and HALTED leave the pc, so the step runs an instruction, and
`exec_pcFollows` says where each one goes. -/
theorem onlyControlTransfersLeaveSequence : Obligations.OnlyControlTransfersLeaveSequence := by
  unfold Obligations.OnlyControlTransfersLeaveSequence
  intro s t h hstay hnext
  obtain ⟨-, rfl⟩ | ⟨-, -, rfl⟩ | ⟨-, w, k, -, -, rfl⟩ | ⟨-, w, i, hf, hd, hx⟩ := step_cases h
  · exact absurd rfl hstay
  · exact absurd rfl hstay
  · exact absurd rfl hstay
  · have hv : decodeVariant w = variantOf i := by rw [decodeVariant, hd]
    have htransfer : TransfersControl i s t.pc := ((exec_pcFollows hx).resolve_left hstay).resolve_left hnext
    refine ⟨w, hf, ?_⟩
    rw [hv]
    exact htransfer

/-- Settles O41: a changed byte lies among those the fetched `sw` writes. -/
theorem onlyStoresChangeMemory : Obligations.OnlyStoresChangeMemory := by
  unfold Obligations.OnlyStoresChangeMemory
  intro s t a h hne
  obtain hm | ⟨w, rs1, rs2, imm, hf, hd, hm⟩ := step_mem h
  · exact absurd (by rw [hm]) hne
  · rw [hm] at hne
    exact ⟨w, rs1, rs2, imm, hf, hd, mem_range_of_readByte_writeBytes_ne hne⟩

/-- Settles O42, from the shapes of an answer (the register is kept) and from one `Ignores` lemma per shared
operation. -/
theorem onlyNamedRegistersMatter : Obligations.OnlyNamedRegistersMatter := by
  unfold Obligations.OnlyNamedRegistersMatter
  intro i s t r h hd
  exact ⟨exec_getReg_of_ne_dest h hd, fun hs v => exec_ignores hd hs s t v h⟩

/-- Settles O1: the registers by `getReg_reset`, every other field by the definition of reset. -/
theorem resetValues : Obligations.ResetValues := by
  unfold Obligations.ResetValues
  exact ⟨getReg_reset, rfl, rfl, rfl, fun _ => rfl, rfl⟩

/-- Settles O20: the general read-after-write and the frames of `addi` and `jal`, at register 0. -/
theorem registerZeroIsOrdinary : Obligations.RegisterZeroIsOrdinary := by
  unfold Obligations.RegisterZeroIsOrdinary
  refine ⟨fun s v => getReg_setReg_same s 0 v, fun s h0 => ⟨_, rfl, ?_⟩, fun s bits => ⟨_, rfl, ?_⟩⟩
  · obtain ⟨hrd, -⟩ := writesReg_writeResult 0 (alu .add (s.getReg 0) (immI 5)) s
    rw [hrd, h0]
    decide
  · obtain ⟨hrd, -⟩ := writesReg_setReg_setPc 0 (linkValue s) (jumpTarget s (encode (.jal 0 bits))) s
    exact hrd

end Sys2Proof.Machine

namespace Sys2Proof

/-! ### Encoding a decoded word gives it back (R82 to R88, R96) -/

section EncodeOfDecode
variable {w : Word} {i : Instr}

theorem encode_of_decodeAluR (ho : fieldOpcode w = 0x33)
    (h : decodeAluR (fieldFunct3 w) (fieldFunct7 w) (fieldRd w) (fieldRs1 w) (fieldRs2 w) = .instr i) :
    encode i = w := by
  have hw := encodeR_fields w
  unfold decodeAluR at h
  split_ifs at h with hc hc hc hc hc hc hc hc <;> cases h <;>
  · obtain ⟨h3, h7⟩ := hc
    rwa [h3, h7, ho] at hw

theorem encode_of_decodeAluI (ho : fieldOpcode w = 0x13)
    (h : decodeAluI (fieldFunct3 w) (fieldFunct7 w) (fieldRd w) (fieldRs1 w) (fieldRs2 w) (fieldImmI w) = .instr i) :
    encode i = w := by
  have himm := encodeI_fields w
  have hshift := encodeR_fields w
  unfold decodeAluI at h
  split_ifs at h with h3 h3 h3 h3 hc hc hc <;> cases h
  · rwa [h3, ho] at himm
  · rwa [h3, ho] at himm
  · rwa [h3, ho] at himm
  · rwa [h3, ho] at himm
  · rwa [hc.1, hc.2, ho] at hshift
  · rwa [hc.1, hc.2, ho] at hshift
  · rwa [hc.1, hc.2, ho] at hshift

theorem encode_of_decodeBranch (ho : fieldOpcode w = 0x63)
    (h : decodeBranch (fieldFunct3 w) (fieldRs1 w) (fieldRs2 w) (fieldImmB w) = .instr i) : encode i = w := by
  have hw := encodeB_fields w ho
  unfold decodeBranch at h
  split_ifs at h with h3 h3 h3 h3 h3 h3 <;> cases h <;> rwa [h3] at hw

theorem encode_of_decodeOpcode (h : decodeOpcode w = .instr i) : encode i = w := by
  unfold decodeOpcode at h
  split_ifs at h with ho ho ho h3 ho h3 ho ho ho hu ho hu
  · exact encode_of_decodeAluR ho h
  · exact encode_of_decodeAluI ho h
  · cases h
    have hw := encodeI_fields w
    rwa [h3, ho] at hw
  · cases h
    exact encodeS_fields w h3 ho
  · exact encode_of_decodeBranch ho h
  all_goals
    cases h
    have hw := encodeJ_fields w
  · rwa [ho] at hw
  · rwa [hu, ho] at hw
  · rwa [hu, ho] at hw

/-- A word that decodes to an instruction is that instruction's encoding. -/
theorem encode_of_decode (h : decode w = .instr i) : encode i = w := by
  unfold decode at h
  split at h
  · next h0 => cases h; exact h0.symm
  · exact encode_of_decodeOpcode h

end EncodeOfDecode

/-! ### The two byte orders (R54, R58) -/

/-- The bytes of a word, stored big-endian and read little-endian, are in reverse order. -/
theorem le32_bytesBe (v : Word) : le32 (bytesBe v) = Machine.byteReverse v := rfl

/-- Reading the bytes of a word most significant first gives it back, as `le32_bytesLe` does from the other end. -/
@[simp] theorem be32_bytesBe (v : Word) : be32 (bytesBe v) = v := le32_bytesLe v

/-- The two readings of four bytes are each other's byte-reverse. -/
theorem byteReverse_le32 (b0 b1 b2 b3 : Byte) :
    Machine.byteReverse (le32 [b0, b1, b2, b3]) = be32 [b0, b1, b2, b3] := by
  simp only [Machine.byteReverse, le32, be32]
  apply BitVec.eq_of_getLsbD_eq
  intro i hi
  interval_cases i <;> simp only [BitVec.getLsbD_append, BitVec.getLsbD_extractLsb'] <;> simp

/-! ### The bytes of an image (R129) -/

theorem length_flatMap_bytesLe (ws : List Word) : (ws.flatMap bytesLe).length = 4 * ws.length := by
  simp [List.length_flatMap, bytesLe, Nat.mul_comm]

/-- The four bytes of an image from offset 4k are those of its word `k`. -/
theorem take_drop_flatMap_bytesLe (ws : List Word) (k : Nat) (h : k < ws.length) :
    ((ws.flatMap bytesLe).drop (4 * k)).take 4 = bytesLe ws[k] := by
  induction ws generalizing k with
  | nil => simp at h
  | cons w ws ih =>
    cases k with
    | zero => rfl
    | succ k => exact ih k (Nat.lt_of_succ_lt_succ h)

end Sys2Proof

namespace Sys2Proof.Machine

/-! ### Reading memory back (R52, R53, R58) -/

/-- Bytes read from where a list was written are that part of the list. -/
theorem readBytes_writeBytes_inside (m : Memory) (a : Nat) (bs : List Byte) (i n : Nat) (h : i + n ≤ bs.length) :
    (m.writeBytes a bs).readBytes (a + i) n = (bs.drop i).take n := by
  induction n generalizing i with
  | zero => rfl
  | succ n ih =>
    have hi : i < bs.length := by omega
    rw [Memory.readBytes, readByte_writeBytes_inside m a bs i hi, Nat.add_assoc, ih (i + 1) (by omega),
      List.drop_eq_getElem_cons hi, List.take_succ_cons]

/-- A word stored big-endian is seen byte-reversed by a little-endian read (R58). -/
theorem le32_memRead_memWrite_bytesBe (s : State) (a v : Word) :
    le32 ((s.memWrite a (bytesBe v)).memRead a 4) = byteReverse v := by
  rw [bytesBe, memRead_memWrite_four]
  exact le32_bytesBe v

/-- The two readings of the word at an address are each other's byte-reverse (R58). -/
theorem be32_memRead_four (s : State) (a : Word) :
    be32 (s.memRead a 4) = byteReverse (le32 (s.memRead a 4)) := by
  rw [memRead_four, byteReverse_le32]

/-! ### Accesses inside and outside memory (R51, R55, R61, R62) -/

/-- Four bytes fit at an address exactly up to the fourth last one. -/
theorem inRange_four_iff (a : Word) : InRange a 4 ↔ a.toNat ≤ 65532 := by
  unfold InRange Config.memSize
  omega

theorem not_inRange_four_iff (a : Word) : ¬ InRange a 4 ↔ 65532 < a.toNat := by
  rw [inRange_four_iff, Nat.not_le]

/-- The step of a running machine with no word to fetch (R61). -/
theorem step_of_fetch_none {s : State} (hr : s.running = true) (hf : fetch s = none) :
    step s = .next (s.enterHalted .fetchOutOfRange 0 0) := by
  simp [step, stepRunning, hr, hf, takeFetchFault, raiseFault]

theorem exec_sw_of_inRange {s : State} {rs1 : Reg} {imm : BitVec 12} (rs2 : Reg)
    (h : InRange (effectiveAddr s rs1 imm) 4) : exec (.sw rs1 rs2 imm) s =
      .next (s.memWrite (effectiveAddr s rs1 imm) (bytesBe (s.getReg rs2))).advance := if_pos h

/-- A load or store outside memory enters HALTED with its own encoding and the effective address (R62). -/
theorem exec_of_not_inRange {s : State} {i : Instr} {rs1 : Reg} {imm : BitVec 12}
    (hi : (∃ rd, i = .lw rd rs1 imm) ∨ ∃ rs2, i = .sw rs1 rs2 imm) (h : ¬ InRange (effectiveAddr s rs1 imm) 4) :
    exec i s = .next (s.enterHalted .dataOutOfRange (encode i) (effectiveAddr s rs1 imm)) := by
  obtain ⟨rd, rfl⟩ | ⟨rs2, rfl⟩ := hi
  · exact if_neg h
  · exact if_neg h

/-- The words of a loaded image are fetched back from their offsets (R55, R129). -/
theorem fetch_loadImage_word (s : State) (ws : List Word) (hfit : 4 * ws.length ≤ 65536) (k : Nat)
    (hk : k < ws.length) :
    fetch ((s.loadImage (ws.flatMap bytesLe)).setPc (BitVec.ofNat 32 (4 * k))) = some ws[k] := by
  have hpc : (BitVec.ofNat 32 (4 * k)).toNat = Config.imageBase + 4 * k := by
    rw [BitVec.toNat_ofNat, Nat.mod_eq_of_lt (by omega), Config.imageBase, Nat.zero_add]
  have hin : InRange (BitVec.ofNat 32 (4 * k)) 4 := by
    rw [inRange_four_iff, hpc, Config.imageBase]
    omega
  have hlen : 4 * k + 4 ≤ (ws.flatMap bytesLe).length := by
    rw [length_flatMap_bytesLe]
    omega
  rw [fetch_of_inRange hin, State.memRead, setPc_pc, hpc, setPc_mem, loadImage_mem,
    readBytes_writeBytes_inside _ _ _ _ _ hlen, take_drop_flatMap_bytesLe ws k hk, le32_bytesLe]

/-! ### The obligations of 20_memory.md -/

/-- Settles O6: the range test decides, and a four-byte read is those four bytes. -/
theorem fetchIsLittleEndianAtAnyAlignment : Obligations.FetchIsLittleEndianAtAnyAlignment := by
  unfold Obligations.FetchIsLittleEndianAtAnyAlignment
  intro s
  refine ⟨fun h => ?_, fun h => fetch_of_not_inRange ((not_inRange_four_iff s.pc).2 h)⟩
  rw [fetch_of_inRange ((inRange_four_iff s.pc).2 h), memRead_four]
  rfl

/-- Settles O7: there is no word to fetch, and the step enters HALTED. -/
theorem fetchOutsideMemoryHalts : Obligations.FetchOutsideMemoryHalts := by
  unfold Obligations.FetchOutsideMemoryHalts
  intro s hr hpc
  have hf : fetch s = none := fetch_of_not_inRange ((not_inRange_four_iff s.pc).2 hpc)
  exact ⟨_, step_of_fetch_none hr hf, entersHalted_enterHalted _ _ _ s, rfl⟩

/-- Settles O25, from the two readings of the same four bytes. -/
theorem byteOrdersDisagree : Obligations.ByteOrdersDisagree := by
  unfold Obligations.ByteOrdersDisagree
  intro s a v _
  exact ⟨le32_memRead_memWrite_bytesBe s a v, be32_memRead_four s a, be32_bytesBe v⟩

/-- Settles O26: the fetch at the effective address reads the four bytes the store wrote. -/
theorem storeSeenByNextFetch : Obligations.StoreSeenByNextFetch := by
  unfold Obligations.StoreSeenByNextFetch
  intro s rs1 rs2 imm hea
  have hin := (inRange_four_iff _).2 hea
  refine ⟨_, exec_sw_of_inRange rs2 hin, ?_⟩
  rw [fetch_of_inRange hin]
  exact congrArg some (le32_memRead_memWrite_bytesBe s (effectiveAddr s rs1 imm) (s.getReg rs2))

/-- Settles O23: the step is the meaning of the fetched `lw` or `sw`, and the encoding it records is the fetched word
(`encode_of_decode`). -/
theorem dataOutsideMemoryHalts : Obligations.DataOutsideMemoryHalts := by
  unfold Obligations.DataOutsideMemoryHalts
  intro s w rd rs1 rs2 imm hr hf hd hea
  have hout : ¬ InRange (effectiveAddr s rs1 imm) 4 := (not_inRange_four_iff _).2 hea
  obtain ⟨i, hdi, hi⟩ : ∃ i, decode w = .instr i ∧ ((∃ rd, i = .lw rd rs1 imm) ∨ ∃ rs2, i = .sw rs1 rs2 imm) :=
    hd.elim (fun h => ⟨_, h, .inl ⟨rd, rfl⟩⟩) (fun h => ⟨_, h, .inr ⟨rs2, rfl⟩⟩)
  have hstep : step s = .next (s.enterHalted .dataOutOfRange w (effectiveAddr s rs1 imm)) := by
    rw [step_of_instr hr hf hdi, exec_of_not_inRange hi hout, encode_of_decode hdi]
  exact ⟨_, hstep, entersHalted_enterHalted _ _ _ s, rfl⟩

/-- Settles O4: the start-up sequence is reset with the image in memory, and each image word is fetched back. -/
theorem imageWordFetchedUnchanged : Obligations.ImageWordFetchedUnchanged := by
  unfold Obligations.ImageWordFetchedUnchanged
  intro x ws hfit
  have hlen : (ws.flatMap bytesLe).length ≤ Config.imageMax := by
    rw [length_flatMap_bytesLe]
    exact hfit
  exact ⟨_, startUp_eq_some.2 ⟨hlen, rfl⟩, rfl, rfl, rfl, rfl, fetch_loadImage_word _ ws hfit⟩

end Sys2Proof.Machine

namespace Sys2Proof

/-! ### The decoder, opcode by opcode (R96, R97) -/

section DecodeByOpcode
variable {w : Word}

/-- A word whose opcode is not 0 is not the zero word, so the opcode map decides. -/
theorem decode_of_opcode_ne_zero (h : fieldOpcode w ≠ 0) : decode w = decodeOpcode w := by
  have hw : w ≠ 0 := by
    rintro rfl
    exact h rfl
  rw [decode, if_neg hw]

theorem decode_of_opcode_aluR (h : fieldOpcode w = 0x33) :
    decode w = decodeAluR (fieldFunct3 w) (fieldFunct7 w) (fieldRd w) (fieldRs1 w) (fieldRs2 w) := by
  rw [decode_of_opcode_ne_zero (by simp [h])]
  simp [decodeOpcode, h]

theorem decode_of_opcode_aluI (h : fieldOpcode w = 0x13) : decode w =
    decodeAluI (fieldFunct3 w) (fieldFunct7 w) (fieldRd w) (fieldRs1 w) (fieldRs2 w) (fieldImmI w) := by
  rw [decode_of_opcode_ne_zero (by simp [h])]
  simp [decodeOpcode, h]

theorem decode_of_opcode_load (h : fieldOpcode w = 0x03) : decode w =
    if fieldFunct3 w = 2 then .instr (.lw (fieldRd w) (fieldRs1 w) (fieldImmI w)) else .illegal .illegalFunct := by
  rw [decode_of_opcode_ne_zero (by simp [h])]
  simp [decodeOpcode, h]

theorem decode_of_opcode_store (h : fieldOpcode w = 0x23) : decode w =
    if fieldFunct3 w = 2 then .instr (.sw (fieldRs1 w) (fieldRs2 w) (fieldImmS w)) else .illegal .illegalFunct := by
  rw [decode_of_opcode_ne_zero (by simp [h])]
  simp [decodeOpcode, h]

theorem decode_of_opcode_branch (h : fieldOpcode w = 0x63) :
    decode w = decodeBranch (fieldFunct3 w) (fieldRs1 w) (fieldRs2 w) (fieldImmB w) := by
  rw [decode_of_opcode_ne_zero (by simp [h])]
  simp [decodeOpcode, h]

theorem decode_of_opcode_jal (h : fieldOpcode w = 0x6F) : decode w = .instr (.jal (fieldRd w) (fieldUpper w)) := by
  rw [decode_of_opcode_ne_zero (by simp [h])]
  simp [decodeOpcode, h]

theorem decode_of_opcode_print (h : fieldOpcode w = 0x0B) :
    decode w = if fieldUpper w = 0 then .instr (.print (fieldRd w)) else .illegal .illegalFunct := by
  rw [decode_of_opcode_ne_zero (by simp [h])]
  simp [decodeOpcode, h]

theorem decode_of_opcode_input (h : fieldOpcode w = 0x0C) :
    decode w = if fieldUpper w = 0 then .instr (.input (fieldRd w)) else .illegal .illegalFunct := by
  rw [decode_of_opcode_ne_zero (by simp [h])]
  simp [decodeOpcode, h]

/-- A nonzero word with an opcode outside the map (R103). -/
theorem decode_of_opcode_unmapped (h0 : w ≠ 0) (h : ¬ Machine.OpcodeInMap (fieldOpcode w)) :
    decode w = .illegal .unknownOpcode := by
  unfold Machine.OpcodeInMap at h
  push Not at h
  obtain ⟨h1, h2, h3, h4, h5, h6, h7, h8⟩ := h
  rw [decode, if_neg h0, decodeOpcode, if_neg h1, if_neg h2, if_neg h3, if_neg h4, if_neg h5, if_neg h6, if_neg h7,
    if_neg h8]

end DecodeByOpcode

/-! ### Decoding an encoded word, format by format (R82 to R88) -/

section DecodeOfEncode
variable (f7 : BitVec 7) (rs2 rs1 : Reg) (f3 : BitVec 3) (rd : Reg) (imm : BitVec 12)

theorem decode_encodeR_aluR : decode (encodeR f7 rs2 rs1 f3 rd 0x33) = decodeAluR f3 f7 rd rs1 rs2 := by
  rw [decode_of_opcode_aluR (by simp)]
  simp

/-- The immediate field of a shift-immediate is no operand of it: `imm` stands for whatever it reads as. -/
theorem decode_encodeR_aluI : ∃ imm, decode (encodeR f7 rs2 rs1 f3 rd 0x13) = decodeAluI f3 f7 rd rs1 rs2 imm := by
  refine ⟨fieldImmI (encodeR f7 rs2 rs1 f3 rd 0x13), ?_⟩
  rw [decode_of_opcode_aluI (by simp)]
  simp

/-- Bits 31:20 of a register-immediate word, read as funct7 and shift amount, are no operands of it. -/
theorem decode_encodeI_aluI : ∃ f7 sh, decode (encodeI imm rs1 f3 rd 0x13) = decodeAluI f3 f7 rd rs1 sh imm := by
  refine ⟨fieldFunct7 (encodeI imm rs1 f3 rd 0x13), fieldRs2 (encodeI imm rs1 f3 rd 0x13), ?_⟩
  rw [decode_of_opcode_aluI (by simp)]
  simp

theorem decode_encodeI_load : decode (encodeI imm rs1 2 rd 0x03) = .instr (.lw rd rs1 imm) := by
  rw [decode_of_opcode_load (by simp)]
  simp

theorem decode_encodeS : decode (encodeS imm rs2 rs1) = .instr (.sw rs1 rs2 imm) := by
  rw [decode_of_opcode_store (by simp)]
  simp

theorem decode_encodeB {off : BitVec 13} (h : off[0] = false) :
    decode (encodeB off rs2 rs1 f3) = decodeBranch f3 rs1 rs2 off := by
  rw [decode_of_opcode_branch (by simp), fieldImmB_encodeB _ _ _ _ h]
  simp

/-- Every well-formed instruction is read back from its word (R133). -/
theorem decode_encode {i : Instr} (h : WellFormed i) : decode (encode i) = .instr i := by
  cases i with
  | add | sub | sll | xor | srl | sra | or | and => exact decode_encodeR_aluR ..
  | addi | xori | ori | andi =>
    obtain ⟨_, _, hd⟩ := decode_encodeI_aluI ..
    exact hd
  | slli | srli | srai =>
    obtain ⟨_, hd⟩ := decode_encodeR_aluI ..
    exact hd
  | lw => exact decode_encodeI_load ..
  | sw => exact decode_encodeS ..
  | beq | bne | blt | bge | bltu | bgeu => exact decode_encodeB _ _ _ (by simpa [WellFormed, Instr.wellFormed] using h)
  | jal =>
    rw [encode, decode_of_opcode_jal (by simp)]
    simp
  | print =>
    rw [encode, decode_of_opcode_print (by simp)]
    simp
  | input =>
    rw [encode, decode_of_opcode_input (by simp)]
    simp
  | halt => rfl

end DecodeOfEncode

/-! ### A decoded instruction is well formed (R85) -/

/-- The decoding is no instruction, or a well-formed one. -/
def GivesWellFormed (d : Decoded) : Prop := ∀ i, d = .instr i → WellFormed i

section GivesWellFormed
variable {f3 : BitVec 3} {f7 : BitVec 7} {rd rs1 rs2 : Reg} {imm : BitVec 12}

theorem givesWellFormed_instr {i : Instr} (h : WellFormed i) : GivesWellFormed (.instr i) := by
  rintro _ ⟨⟩
  exact h

theorem givesWellFormed_illegal (k : Illegal) : GivesWellFormed (.illegal k) := by
  rintro _ ⟨⟩

theorem givesWellFormed_ite {c : Prop} [Decidable c] {d e : Decoded} (hd : GivesWellFormed d)
    (he : GivesWellFormed e) : GivesWellFormed (if c then d else e) := by
  split
  · exact hd
  · exact he

theorem decodeAluR_givesWellFormed : GivesWellFormed (decodeAluR f3 f7 rd rs1 rs2) := by
  unfold decodeAluR
  iterate 8 refine givesWellFormed_ite (givesWellFormed_instr rfl) ?_
  exact givesWellFormed_illegal _

theorem decodeAluI_givesWellFormed : GivesWellFormed (decodeAluI f3 f7 rd rs1 rs2 imm) := by
  unfold decodeAluI
  iterate 7 refine givesWellFormed_ite (givesWellFormed_instr rfl) ?_
  exact givesWellFormed_illegal _

theorem decodeBranch_givesWellFormed {off : BitVec 13} (heven : off[0] = false) :
    GivesWellFormed (decodeBranch f3 rs1 rs2 off) := by
  have hwf : (!off[0]) = true := by rw [heven, Bool.not_false]
  unfold decodeBranch
  iterate 6 refine givesWellFormed_ite (givesWellFormed_instr hwf) ?_
  exact givesWellFormed_illegal _

/-- The opcode map's rows, in its order; only the branches' displacement is to be checked. -/
theorem decode_givesWellFormed (w : Word) : GivesWellFormed (decode w) := by
  unfold decode decodeOpcode
  refine givesWellFormed_ite (givesWellFormed_instr rfl) ?_
  refine givesWellFormed_ite decodeAluR_givesWellFormed ?_
  refine givesWellFormed_ite decodeAluI_givesWellFormed ?_
  iterate 2
    refine givesWellFormed_ite (givesWellFormed_ite (givesWellFormed_instr rfl) (givesWellFormed_illegal _)) ?_
  refine givesWellFormed_ite (decodeBranch_givesWellFormed (fieldImmB_even w)) ?_
  refine givesWellFormed_ite (givesWellFormed_instr rfl) ?_
  iterate 2
    refine givesWellFormed_ite (givesWellFormed_ite (givesWellFormed_instr rfl) (givesWellFormed_illegal _)) ?_
  exact givesWellFormed_illegal _

end GivesWellFormed

theorem wellFormed_of_decode {w : Word} {i : Instr} (h : decode w = .instr i) : WellFormed i :=
  decode_givesWellFormed w i h

/-! ### The words that are no instruction (R103, R104) -/

section Illegal
open Machine
variable {f3 : BitVec 3} {f7 : BitVec 7} {rd rs1 rs2 : Reg} {imm : BitVec 12} {w : Word} {k : Illegal}

/-- The eight values of funct3. -/
theorem funct3_cases (f3 : BitVec 3) :
    f3 = 0 ∨ f3 = 1 ∨ f3 = 2 ∨ f3 = 3 ∨ f3 = 4 ∨ f3 = 5 ∨ f3 = 6 ∨ f3 = 7 := by
  revert f3
  decide

/-- A decoder's chain of rows gives an illegal word exactly when each row's condition fails and its end does. -/
theorem ite_instr_eq_illegal_iff {c : Prop} [Decidable c] {i : Instr} {d : Decoded} :
    (if c then .instr i else d) = .illegal k ↔ ¬ c ∧ d = .illegal k := by
  by_cases h : c <;> simp [h]

theorem illegal_eq_illegal_iff {j : Illegal} : Decoded.illegal j = .illegal k ↔ k = j := by
  rw [Decoded.illegal.injEq, eq_comm]

theorem decodeAluR_eq_illegal_iff :
    decodeAluR f3 f7 rd rs1 rs2 = .illegal k ↔ ¬ ListedPair f3 f7 ∧ k = .illegalFunct := by
  simp only [decodeAluR, ite_instr_eq_illegal_iff, illegal_eq_illegal_iff, ListedPair]
  by_cases h0 : f7 = 0#7
  · simp [h0, and_assoc]
  · by_cases h20 : f7 = 32#7 <;> simp [h0, h20, and_assoc]

theorem decodeAluI_eq_illegal_iff : decodeAluI f3 f7 rd rs1 rs2 imm = .illegal k ↔
    (f3 = 2 ∨ f3 = 3 ∨ (f3 = 1 ∧ f7 ≠ 0x00) ∨ (f3 = 5 ∧ f7 ≠ 0x00 ∧ f7 ≠ 0x20)) ∧ k = .illegalFunct := by
  simp only [decodeAluI, ite_instr_eq_illegal_iff, illegal_eq_illegal_iff]
  obtain rfl | rfl | rfl | rfl | rfl | rfl | rfl | rfl := funct3_cases f3 <;> simp [and_assoc]

theorem decodeBranch_eq_illegal_iff {off : BitVec 13} : decodeBranch f3 rs1 rs2 off = .illegal k ↔
    (f3 = 2 ∨ f3 = 3) ∧ k = .illegalFunct := by
  simp only [decodeBranch, ite_instr_eq_illegal_iff, illegal_eq_illegal_iff]
  obtain rfl | rfl | rfl | rfl | rfl | rfl | rfl | rfl := funct3_cases f3 <;> simp

/-- With an opcode of the map, a word is an instruction or IllegalFunct, as R104's list says. -/
theorem decode_eq_illegal_iff_of_mapped (h : OpcodeInMap (fieldOpcode w)) : decode w = .illegal k ↔
    IllegalPattern (fieldOpcode w) (fieldFunct3 w) (fieldFunct7 w) (fieldUpper w) ∧ k = .illegalFunct := by
  obtain h | h | h | h | h | h | h | h := h
  · rw [decode_of_opcode_aluR h, decodeAluR_eq_illegal_iff]
    simp [IllegalPattern, h]
  · rw [decode_of_opcode_aluI h, decodeAluI_eq_illegal_iff]
    simp [IllegalPattern, h, or_assoc]
  · rw [decode_of_opcode_load h, ite_instr_eq_illegal_iff, illegal_eq_illegal_iff]
    simp [IllegalPattern, h]
  · rw [decode_of_opcode_store h, ite_instr_eq_illegal_iff, illegal_eq_illegal_iff]
    simp [IllegalPattern, h]
  · rw [decode_of_opcode_branch h, decodeBranch_eq_illegal_iff]
    simp [IllegalPattern, h]
  · rw [decode_of_opcode_jal h]
    simp [IllegalPattern, h]
  · rw [decode_of_opcode_print h, ite_instr_eq_illegal_iff, illegal_eq_illegal_iff]
    simp [IllegalPattern, h]
  · rw [decode_of_opcode_input h, ite_instr_eq_illegal_iff, illegal_eq_illegal_iff]
    simp [IllegalPattern, h]

/-- Every point of R104's list has an opcode of the map. -/
theorem opcodeInMap_of_illegalPattern {op : BitVec 7} {upper : BitVec 20} (h : IllegalPattern op f3 f7 upper) :
    OpcodeInMap op := by
  unfold IllegalPattern at h
  unfold OpcodeInMap
  tauto

/-- UnknownOpcode words are the nonzero words with an opcode outside the map (R103). -/
theorem decode_eq_unknownOpcode_iff : decode w = .illegal .unknownOpcode ↔ w ≠ 0 ∧ ¬ OpcodeInMap (fieldOpcode w) := by
  constructor
  · intro h
    refine ⟨?_, fun hm => ?_⟩
    · rintro rfl
      cases h
    · cases ((decode_eq_illegal_iff_of_mapped hm).1 h).2
  · rintro ⟨h0, hm⟩
    exact decode_of_opcode_unmapped h0 hm

/-- IllegalFunct words are those of R104's list. -/
theorem decode_eq_illegalFunct_iff : decode w = .illegal .illegalFunct ↔
    IllegalPattern (fieldOpcode w) (fieldFunct3 w) (fieldFunct7 w) (fieldUpper w) := by
  by_cases hm : OpcodeInMap (fieldOpcode w)
  · simp [decode_eq_illegal_iff_of_mapped hm]
  · refine iff_of_false (fun h => ?_) (fun h => hm (opcodeInMap_of_illegalPattern h))
    by_cases h0 : w = 0
    · subst h0
      cases h
    · rw [decode_of_opcode_unmapped h0 hm] at h
      cases h

end Illegal

end Sys2Proof

namespace Sys2Proof.Machine

/-! ### A word that is no instruction halts the machine (R103, R104, R110) -/

/-- The step of a running machine on an illegal word enters HALTED with that word's cause and changes nothing else. -/
theorem step_entersHalted_of_illegal {s : State} {w : Word} {k : Illegal} (hr : s.running = true)
    (hf : fetch s = some w) (hd : decode w = .illegal k) :
    ∃ t, step s = .next t ∧ EntersHalted (causeOfIllegal k) w 0 s t ∧
      t.haltRec = ⟨(causeOfIllegal k).code, s.pc, w, 0⟩ :=
  ⟨_, step_of_illegal hr hf hd, entersHalted_enterHalted _ w 0 s, rfl⟩

end Sys2Proof.Machine

namespace Sys2Proof

/-! ### The immediates as integers (R90 to R92) -/

/-- A 12-bit immediate keeps its signed value as a word. -/
theorem toInt_sext12 (v : BitVec 12) : (sext12 v).toInt = v.toInt :=
  BitVec.toInt_signExtend_of_le (by decide)

theorem toInt_sext12_mem_range (v : BitVec 12) : -2048 ≤ (sext12 v).toInt ∧ (sext12 v).toInt ≤ 2047 := by
  have hlo := v.le_toInt
  have hhi := v.toInt_lt
  rw [toInt_sext12]
  omega

/-- A displacement whose bit 0 is not stored is twice the signed value of its stored bits. -/
theorem toInt_sext13_append_zero (v : BitVec 12) : (sext13 (v ++ 0#1)).toInt = 2 * v.toInt := by
  rw [sext13, BitVec.toInt_signExtend_of_le (by decide), BitVec.toInt_append_zero, pow_one]

theorem toInt_sext13_append_zero_mem_range (v : BitVec 12) :
    -4096 ≤ (sext13 (v ++ 0#1)).toInt ∧ (sext13 (v ++ 0#1)).toInt ≤ 4094 := by
  have hlo := v.le_toInt
  have hhi := v.toInt_lt
  rw [toInt_sext13_append_zero]
  omega

end Sys2Proof

namespace Sys2Proof.Machine

/-! ### The obligations of 30_encoding.md on words -/

/-- Settles O10, from `decode_encode`: one decoding lemma per format. -/
theorem decodeOfEncode : Obligations.DecodeOfEncode := by
  unfold Obligations.DecodeOfEncode
  intro i h
  exact decode_encode h

/-- Settles O11: each opcode's decoder gives well-formed instructions only, and a word is the encoding of its own
fields. -/
theorem encodeOfDecode : Obligations.EncodeOfDecode := by
  unfold Obligations.EncodeOfDecode
  intro w i h
  exact ⟨wellFormed_of_decode h, encode_of_decode h⟩

/-- Settles O12: the two points of R103 together are the nonzero words with an opcode outside the map. -/
theorem unknownOpcodeWords : Obligations.UnknownOpcodeWords := by
  unfold Obligations.UnknownOpcodeWords
  refine ⟨fun w => ?_, fun s w hr hf hd => step_entersHalted_of_illegal hr hf hd⟩
  have hzero : fieldOpcode w = 0 → ¬ OpcodeInMap (fieldOpcode w) := by
    intro h
    rw [h]
    unfold OpcodeInMap
    decide
  have hne : fieldOpcode w ≠ 0 → w ≠ 0 := by
    rintro h rfl
    exact h rfl
  rw [decode_eq_unknownOpcode_iff]
  change _ ↔ (fieldOpcode w ≠ 0 ∧ ¬ OpcodeInMap (fieldOpcode w)) ∨ (fieldOpcode w = 0 ∧ w ≠ 0)
  tauto

/-- Settles O13: opcode by opcode, the words no row takes are those of R104's list. -/
theorem illegalFunctWords : Obligations.IllegalFunctWords := by
  unfold Obligations.IllegalFunctWords
  exact ⟨fun w => decode_eq_illegalFunct_iff, fun s w hr hf hd => step_entersHalted_of_illegal hr hf hd⟩

/-- Settles O14: sign extension keeps the signed value, and the bit imm_B does not store doubles it. -/
theorem immediatesAreSignExtended : Obligations.ImmediatesAreSignExtended := by
  unfold Obligations.ImmediatesAreSignExtended
  intro w
  exact ⟨⟨toInt_sext12 _, toInt_sext12_mem_range _⟩, ⟨toInt_sext12 _, toInt_sext12_mem_range _⟩,
    toInt_sext13_append_zero _, toInt_sext13_append_zero_mem_range _⟩

/-- Settles O5: the fetch gives the four bytes at the pc, and the step runs what they decode to. -/
theorem stepRunsDecodedInstruction : Obligations.StepRunsDecodedInstruction := by
  unfold Obligations.StepRunsDecodedInstruction
  intro s i hr hpc hd
  have hf := (fetchIsLittleEndianAtAnyAlignment s).1 hpc
  exact step_of_instr hr hf hd

end Sys2Proof.Machine

namespace Sys2Proof.Asm

/-! ### Lines that bear an instruction (R122, R127) -/

/-- The lines that bear an instruction, in the order of the text. -/
def bearing (ls : List Line) : List Line := ls.filter fun l => !l.body.isEmpty

section Bearing
variable {l : Line} (ls : List Line)

@[simp] theorem bearing_nil : bearing [] = [] := rfl

theorem bearing_cons_of_empty (h : l.body.isEmpty = true) : bearing (l :: ls) = bearing ls := by
  simp [bearing, h]

theorem bearing_cons_of_nonempty (h : l.body.isEmpty = false) : bearing (l :: ls) = l :: bearing ls := by
  simp [bearing, h]

/-- A line advances the address by 4 for each instruction it bears. -/
theorem length_bearing_cons : 4 * (bearing (l :: ls)).length = l.size + 4 * (bearing ls).length := by
  unfold Line.size
  cases h : l.body.isEmpty
  · simp [bearing_cons_of_nonempty ls h, Nat.mul_add, Nat.add_comm]
  · simp [bearing_cons_of_empty ls h]

end Bearing

/-! ### The first pass (R122) -/

/-- A line that defines a label: the label is new, and the pass goes on with it added. -/
theorem resolveFrom_cons_label {l : Line} {ls : List Line} {n addr : Nat} {seen labels : Labels} {name : Token}
    (hl : l.label = some name) (h : resolveFrom (l :: ls) n addr seen = .ok labels) :
    seen.lookup name = none ∧ resolveFrom ls (n + 1) (addr + l.size) (seen ++ [(name, addr)]) = .ok labels := by
  rw [resolveFrom, hl] at h
  dsimp only at h
  split at h
  · cases h
  · next hnew => exact ⟨Option.not_isSome_iff_eq_none.1 hnew, h⟩

theorem resolveFrom_cons_noLabel {l : Line} {ls : List Line} {n addr : Nat} {seen : Labels} (hl : l.label = none) :
    resolveFrom (l :: ls) n addr seen = resolveFrom ls (n + 1) (addr + l.size) seen := by
  rw [resolveFrom, hl]

/-- The pass only adds labels at the end, so that a resolved label stays resolved. -/
theorem resolveFrom_keeps_seen {ls : List Line} {n addr : Nat} {seen labels : Labels}
    (h : resolveFrom ls n addr seen = .ok labels) : seen <+: labels := by
  induction ls generalizing n addr seen with
  | nil =>
    cases h
    exact ⟨[], List.append_nil _⟩
  | cons l ls ih =>
    cases hl : l.label with
    | none => exact ih (resolveFrom_cons_noLabel hl ▸ h)
    | some name => exact List.IsPrefix.trans ⟨_, rfl⟩ (ih (resolveFrom_cons_label hl h).2)

/-- Each label is resolved to the pass's address plus 4 for each instruction-bearing line before its own. -/
theorem resolveFrom_lookup {ls : List Line} {n addr : Nat} {seen labels : Labels}
    (h : resolveFrom ls n addr seen = .ok labels) {k : Nat} (hk : k < ls.length) {name : Token}
    (hname : ls[k].label = some name) : labels.lookup name = some (addr + 4 * (bearing (ls.take k)).length) := by
  induction ls generalizing n addr seen k with
  | nil => simp at hk
  | cons l ls ih =>
    cases k with
    | zero =>
      obtain ⟨hnew, hrest⟩ := resolveFrom_cons_label hname h
      refine (resolveFrom_keeps_seen hrest).lookup_eq_some ?_
      simp [List.lookup_append, hnew]
    | succ k =>
      obtain ⟨seen', hrest⟩ : ∃ seen', resolveFrom ls (n + 1) (addr + l.size) seen' = .ok labels := by
        cases hl : l.label with
        | none => exact ⟨seen, resolveFrom_cons_noLabel hl ▸ h⟩
        | some name => exact ⟨_, (resolveFrom_cons_label hl h).2⟩
      rw [ih hrest (by simpa using hk) hname, List.take_succ_cons, length_bearing_cons, Nat.add_assoc]

/-! ### Branch targets (R126) -/

/-- An offset a branch can hold: even and in -4096 .. 4094. -/
def GoodOffset (d : Int) : Prop := -4096 ≤ d ∧ d ≤ 4094 ∧ d % 2 = 0

section Target
variable {labels : Labels} {addr target : Nat} {t : Token}

theorem parseTarget_of_undefined (ht : parseInt t = none) (hl : labels.lookup t = none) :
    parseTarget labels addr t = .error .undefinedLabel := by
  simp [parseTarget, ht, hl]

theorem parseTarget_of_good (ht : parseInt t = none) (hl : labels.lookup t = some target)
    (hd : GoodOffset ((target : Int) - addr)) :
    parseTarget labels addr t = .ok (BitVec.ofInt 13 ((target : Int) - addr)) := by
  rw [parseTarget, ht, hl]
  exact if_pos hd

theorem parseTarget_of_bad (ht : parseInt t = none) (hl : labels.lookup t = some target)
    (hd : ¬ GoodOffset ((target : Int) - addr)) : parseTarget labels addr t = .error .branchOffset := by
  rw [parseTarget, ht, hl]
  exact if_neg hd

/-- An accepted target's offset is a good one. -/
theorem parseTarget_ok {off : BitVec 13} (h : parseTarget labels addr t = .ok off) :
    ∃ d, GoodOffset d ∧ off = BitVec.ofInt 13 d := by
  unfold parseTarget at h
  split_ifs at h
  split at h
  · cases h
  · split_ifs at h with hd
    cases h
    exact ⟨_, hd, rfl⟩

end Target

theorem toInt_ofInt_of_goodOffset {d : Int} (h : GoodOffset d) : (BitVec.ofInt 13 d).toInt = d := by
  obtain ⟨hlo, hhi, -⟩ := h
  exact BitVec.toInt_ofInt_eq_self (by decide) hlo (by omega)

theorem ofInt_even_of_goodOffset {d : Int} (h : GoodOffset d) : (BitVec.ofInt 13 d)[0] = false := by
  obtain ⟨-, -, heven⟩ := h
  rw [← BitVec.getLsbD_eq_getElem, BitVec.getLsbD, BitVec.toNat_ofInt, Nat.testBit_zero, decide_eq_false_iff_not]
  omega

/-! ### An accepted line's instruction is well formed (R125, R133) -/

/-- What is found in a table under a key is one of its rows. -/
theorem mem_of_lookup_eq_some {α : Type} {table : List (Token × α)} {m : Token} {a : α}
    (h : table.lookup m = some a) : (m, a) ∈ table := by
  obtain ⟨before, after, rfl, -⟩ := List.lookup_eq_some_iff.1 h
  simp

theorem opsR_wellFormed : ∀ row ∈ opsR, ∀ rd rs1 rs2, WellFormed (row.2 rd rs1 rs2) := by
  simp [opsR, WellFormed, Instr.wellFormed]

theorem opsI_wellFormed : ∀ row ∈ opsI, ∀ rd rs1 imm, WellFormed (row.2 rd rs1 imm) := by
  simp [opsI, WellFormed, Instr.wellFormed]

theorem opsShift_wellFormed : ∀ row ∈ opsShift, ∀ rd rs1 sh, WellFormed (row.2 rd rs1 sh) := by
  simp [opsShift, WellFormed, Instr.wellFormed]

theorem opsB_wellFormed : ∀ row ∈ opsB, ∀ rs1 rs2 (off : BitVec 13), off[0] = false →
    WellFormed (row.2 rs1 rs2 off) := by
  simp [opsB, WellFormed, Instr.wellFormed]

theorem opsIo_wellFormed : ∀ row ∈ opsIo, ∀ rd, WellFormed (row.2 rd) := by
  simp [opsIo, WellFormed, Instr.wellFormed]

/-- Three operands are accepted only as what the row builds of them; the last one is a token its parser takes. -/
theorem three_ok {α β γ : Type} {pa : Token → Except AsmError α} {pb : Token → Except AsmError β}
    {pc : Token → Except AsmError γ} {f : α → β → γ → Instr} {ops : List Token} {i : Instr}
    (h : three pa pb pc f ops = .ok i) : ∃ x y z t, pc t = .ok z ∧ i = f x y z := by
  unfold three at h
  split at h
  · split at h
    · cases h
    · cases h
    · cases h
    · next x y z _ _ hz =>
      cases h
      exact ⟨x, y, z, _, hz, rfl⟩
  · cases h

theorem oneReg_ok {f : Reg → Instr} {ops : List Token} {i : Instr} (h : oneReg f ops = .ok i) : ∃ x, i = f x := by
  unfold oneReg at h
  split at h
  · split at h
    · cases h
    · next x _ =>
      cases h
      exact ⟨x, rfl⟩
  · cases h

/-- The tables' rows build well-formed instructions; a branch's displacement is even because its target was taken. -/
theorem wellFormed_of_parseInstr {labels : Labels} {addr : Nat} {toks : List Token} {i : Instr}
    (h : parseInstr labels addr toks = .ok i) : WellFormed i := by
  cases toks with
  | nil => cases h
  | cons m ops =>
    rw [parseInstr] at h
    split at h
    · next f hf =>
      obtain ⟨x, y, z, -, -, rfl⟩ := three_ok h
      exact opsR_wellFormed _ (mem_of_lookup_eq_some hf) x y z
    · next f hf _ =>
      obtain ⟨x, y, z, -, -, rfl⟩ := three_ok h
      exact opsI_wellFormed _ (mem_of_lookup_eq_some hf) x y z
    · next f hf _ _ =>
      obtain ⟨x, y, z, -, -, rfl⟩ := three_ok h
      exact opsShift_wellFormed _ (mem_of_lookup_eq_some hf) x y z
    · next f hf _ _ _ =>
      obtain ⟨x, y, off, t, ht, rfl⟩ := three_ok h
      obtain ⟨d, hd, rfl⟩ := parseTarget_ok ht
      exact opsB_wellFormed _ (mem_of_lookup_eq_some hf) x y _ (ofInt_even_of_goodOffset hd)
    · next f hf _ _ _ _ =>
      obtain ⟨x, rfl⟩ := oneReg_ok h
      exact opsIo_wellFormed _ (mem_of_lookup_eq_some hf) x
    · split_ifs at h
      · obtain ⟨x, y, z, -, -, rfl⟩ := three_ok h
        rfl
      · obtain ⟨x, y, z, -, -, rfl⟩ := three_ok h
        rfl
      · cases h
        rfl

/-! ### The second pass (R127 to R129) -/

section SecondPass
variable {labels : Labels} {l : Line} {ls : List Line} {n addr : Nat} {is : List Instr}

theorem instrsFrom_cons_of_empty (hl : l.body.isEmpty = true) :
    instrsFrom labels (l :: ls) n addr = instrsFrom labels ls (n + 1) addr := by
  rw [instrsFrom, if_pos hl]

/-- A line that bears an instruction gives the first of the rest of the program. -/
theorem instrsFrom_cons_of_nonempty (hl : l.body.isEmpty = false) (h : instrsFrom labels (l :: ls) n addr = .ok is) :
    ∃ i rest, parseInstr labels addr l.body = .ok i ∧ instrsFrom labels ls (n + 1) (addr + 4) = .ok rest ∧
      is = i :: rest := by
  rw [instrsFrom, if_neg (by simp [hl])] at h
  split at h
  · cases h
  · next i hi =>
    split at h
    · cases h
    · next rest hrest =>
      cases h
      exact ⟨i, rest, hi, hrest, rfl⟩

/-- One instruction per line that bears one. -/
theorem length_of_instrsFrom (h : instrsFrom labels ls n addr = .ok is) : is.length = (bearing ls).length := by
  induction ls generalizing n addr is with
  | nil =>
    cases h
    rfl
  | cons l ls ih =>
    cases hl : l.body.isEmpty with
    | true => rw [bearing_cons_of_empty ls hl, ih (instrsFrom_cons_of_empty hl ▸ h)]
    | false =>
      obtain ⟨i, rest, -, hrest, rfl⟩ := instrsFrom_cons_of_nonempty hl h
      rw [bearing_cons_of_nonempty ls hl, List.length_cons, List.length_cons, ih hrest]

/-- The k-th instruction is the one that the k-th instruction-bearing line stands for, 4k bytes on. -/
theorem parseInstr_of_instrsFrom (h : instrsFrom labels ls n addr = .ok is) {k : Nat} (hk : k < is.length)
    (hb : k < (bearing ls).length) : parseInstr labels (addr + 4 * k) (bearing ls)[k].body = .ok is[k] := by
  induction ls generalizing n addr is k with
  | nil => simp at hb
  | cons l ls ih =>
    cases hl : l.body.isEmpty with
    | true =>
      simp only [bearing_cons_of_empty ls hl] at hb ⊢
      exact ih (instrsFrom_cons_of_empty hl ▸ h) hk hb
    | false =>
      obtain ⟨i, rest, hi, hrest, rfl⟩ := instrsFrom_cons_of_nonempty hl h
      simp only [bearing_cons_of_nonempty ls hl] at hb ⊢
      cases k with
      | zero => exact hi
      | succ k =>
        have hrec := ih hrest (Nat.lt_of_succ_lt_succ hk) (Nat.lt_of_succ_lt_succ hb)
        rwa [Nat.add_assoc, Nat.add_comm 4, ← Nat.mul_succ] at hrec

/-- An accepted text's labels resolve, and its instructions are those of the second pass. -/
theorem assembleInstrs_ok {text : List Char} (h : assembleInstrs text = .ok is) :
    ∃ labels, resolveLabels (linesOf text) = .ok labels ∧ instrsFrom labels (linesOf text) 1 0 = .ok is := by
  unfold assembleInstrs at h
  split at h
  · cases h
  · next labels hlabels => exact ⟨labels, hlabels, h⟩

end SecondPass

/-! ### The image (R129) -/

/-- An image is the bytes of its instructions' words. -/
theorem imageOf_eq_flatMap_words (is : List Instr) : imageOf is = (is.map encode).flatMap bytesLe := by
  rw [imageOf, List.flatMap_map]

theorem length_imageOf (is : List Instr) : (imageOf is).length = 4 * is.length := by
  rw [imageOf_eq_flatMap_words, length_flatMap_bytesLe, List.length_map]

/-- The k-th four bytes of an image are the word of its k-th instruction, little-endian. -/
theorem take_drop_imageOf (is : List Instr) {k : Nat} (hk : k < is.length) :
    ((imageOf is).drop (4 * k)).take 4 = bytesLe (encode is[k]) := by
  rw [imageOf_eq_flatMap_words, take_drop_flatMap_bytesLe _ k (by simpa using hk), List.getElem_map]

/-! ### The obligations on the assembler -/

/-- Settles O44: the first pass from address 0. -/
theorem labelAddressCountsInstructions : Obligations.LabelAddressCountsInstructions := by
  unfold Obligations.LabelAddressCountsInstructions
  intro ls labels h k hk name hname
  rw [resolveFrom_lookup h hk hname, Nat.zero_add, bearing]

/-- Settles O45: the offset is good exactly when none of the three complaints applies, and 13 bits hold a good one. -/
theorem branchOffsetFromLabel : Obligations.BranchOffsetFromLabel := by
  unfold Obligations.BranchOffsetFromLabel
  intro labels addr t ht
  refine ⟨parseTarget_of_undefined ht, fun target hl => ⟨fun hbad => ?_, fun heven hlo hhi => ?_⟩⟩
  · refine parseTarget_of_bad ht hl fun hgood => ?_
    obtain ⟨hlo, hhi, heven⟩ := hgood
    omega
  · have hgood : GoodOffset ((target : Int) - addr) := ⟨hlo, hhi, heven⟩
    exact ⟨_, parseTarget_of_good ht hl hgood, toInt_ofInt_of_goodOffset hgood⟩

/-- Settles O46: an accepted instruction is well formed, so `decode_encode` reads it back. -/
theorem assembledLineDecodesBack : Obligations.AssembledLineDecodesBack := by
  unfold Obligations.AssembledLineDecodesBack
  intro labels addr toks i h
  exact decode_encode (wellFormed_of_parseInstr h)

/-- Settles O47: the second pass gives one instruction per instruction-bearing line, and the image one word per
instruction. -/
theorem imageHasOneWordPerLine : Obligations.ImageHasOneWordPerLine := by
  unfold Obligations.ImageHasOneWordPerLine
  intro text is h
  obtain ⟨labels, hlabels, his⟩ := assembleInstrs_ok h
  have hlen := length_of_instrsFrom his
  refine ⟨labels, hlabels, (length_imageOf is).trans (congrArg (4 * ·) hlen), fun k hk => ?_⟩
  have hki : k < is.length := hlen.symm ▸ hk
  have hparse := parseInstr_of_instrsFrom his hki hk
  rw [Nat.zero_add] at hparse
  exact ⟨is[k], hparse, List.getElem?_eq_getElem hki, take_drop_imageOf is hki⟩

end Sys2Proof.Asm

namespace Sys2Proof

/-! ### The rows of opcodes 0x33 and 0x13, by mask and match (R98 to R100) -/

section RowMasks
variable {w mat : Word}

/-- A word that the R mask takes to `mat` has `mat`'s opcode, funct3 and funct7. -/
theorem fields_of_maskR (h : w &&& 0xFE00707F = mat) :
    fieldOpcode w = fieldOpcode mat ∧ fieldFunct3 w = fieldFunct3 mat ∧ fieldFunct7 w = fieldFunct7 mat := by
  have hm := encodeR_mask (fieldFunct7 w) (fieldRs2 w) (fieldRs1 w) (fieldFunct3 w) (fieldRd w) (fieldOpcode w)
  rw [encodeR_fields, h] at hm
  simp [hm]

/-- A word that the I mask takes to `mat` has `mat`'s opcode and funct3. -/
theorem fields_of_maskI (h : w &&& 0x0000707F = mat) :
    fieldOpcode w = fieldOpcode mat ∧ fieldFunct3 w = fieldFunct3 mat := by
  have hm := encodeI_mask (fieldImmI w) (fieldRs1 w) (fieldFunct3 w) (fieldRd w) (fieldOpcode w)
  rw [encodeI_fields, h] at hm
  simp [hm]

end RowMasks

end Sys2Proof

namespace Sys2Proof.Machine

/-! ### Shift amounts (R93, R152) -/

theorem shiftAmount_eq_mod (b : Word) : shiftAmount b = b.toNat % 32 := by
  simp [shiftAmount, BitVec.extractLsb'_toNat]

theorem alu_sll_eq_mod (a b : Word) : alu .sll a b = a <<< (b.toNat % 32) := by
  rw [alu, shiftAmount_eq_mod]

theorem alu_srl_eq_mod (a b : Word) : alu .srl a b = a >>> (b.toNat % 32) := by
  rw [alu, shiftAmount_eq_mod]

theorem alu_sra_eq_mod (a b : Word) : alu .sra a b = a.sshiftRight (b.toNat % 32) := by
  rw [alu, shiftAmount_eq_mod]

/-- Bits 31:25 of a shift-immediate's word, and their sign extension, lie above the shift amount. -/
@[simp] theorem shiftAmount_immShift (f7 : BitVec 7) (sh : BitVec 5) : shiftAmount (immShift f7 sh) = sh.toNat := by
  have hlow : (immShift f7 sh).extractLsb' 0 5 = sh := by
    ext i hi
    have h12 : i < 12 := by omega
    have h32 : i < 32 := by omega
    rw [BitVec.getElem_extractLsb', zero_add, immShift, sext12, BitVec.getLsbD_signExtend, BitVec.getLsbD_append]
    simp [hi, h12, h32]
  rw [shiftAmount, hlow]

/-- The signed value of `sra`'s result is the exact quotient rounded down (R165). -/
theorem toInt_alu_sra (a b : Word) : (alu .sra a b).toInt = a.toInt / 2 ^ (b.toNat % 32) := by
  rw [alu_sra_eq_mod, BitVec.toInt_sshiftRight, Int.shiftRight_eq_div_pow]
  norm_cast

/-! ### A row of the ALU's table from its decoder row and its ALU operation (R153) -/

section AluRows
variable {mat : Word} {op : AluOp}

theorem regRegRule_of_aluReg {mk : Reg → Reg → Reg → Instr} {f : Word → Word → Word} (ho : fieldOpcode mat = 0x33)
    (hd : ∀ rd rs1 rs2, decodeAluR (fieldFunct3 mat) (fieldFunct7 mat) rd rs1 rs2 = .instr (mk rd rs1 rs2))
    (hx : ∀ rd rs1 rs2, exec (mk rd rs1 rs2) = aluReg op rd rs1 rs2) (hf : ∀ a b, alu op a b = f a b) :
    RegRegRule mk mat f := by
  refine ⟨fun w h => ?_, fun rd rs1 rs2 s => ⟨_, congrFun (hx rd rs1 rs2) s, ?_⟩⟩
  · obtain ⟨hop, h3, h7⟩ := fields_of_maskR h
    rw [decode_of_opcode_aluR (hop.trans ho), h3, h7, hd]
  · rw [← hf]
    exact writesReg_writeResult rd _ s

theorem regImmRule_of_aluImm {mk : Reg → Reg → BitVec 12 → Instr} {f : Word → Word → Word}
    (ho : fieldOpcode mat = 0x13)
    (hd : ∀ f7 rd rs1 sh imm, decodeAluI (fieldFunct3 mat) f7 rd rs1 sh imm = .instr (mk rd rs1 imm))
    (hx : ∀ rd rs1 imm, exec (mk rd rs1 imm) = aluImm op rd rs1 (immI imm)) (hf : ∀ a b, alu op a b = f a b) :
    RegImmRule mk mat f := by
  refine ⟨fun w h => ?_, fun rd rs1 imm s => ⟨_, congrFun (hx rd rs1 imm) s, ?_⟩⟩
  · obtain ⟨hop, h3⟩ := fields_of_maskI h
    rw [decode_of_opcode_aluI (hop.trans ho), h3, hd, fieldImmI]
  · rw [← hf]
    exact writesReg_writeResult rd _ s

theorem shiftImmRule_of_aluImm {mk : Reg → Reg → BitVec 5 → Instr} {f : Word → Nat → Word} {f7 : BitVec 7}
    (ho : fieldOpcode mat = 0x13)
    (hd : ∀ rd rs1 sh imm, decodeAluI (fieldFunct3 mat) (fieldFunct7 mat) rd rs1 sh imm = .instr (mk rd rs1 sh))
    (hx : ∀ rd rs1 sh, exec (mk rd rs1 sh) = aluImm op rd rs1 (immShift f7 sh))
    (hf : ∀ a b, alu op a b = f a (shiftAmount b)) : ShiftImmRule mk mat f := by
  refine ⟨fun w h => ?_, fun rd rs1 sh s => ⟨_, congrFun (hx rd rs1 sh) s, ?_⟩⟩
  · obtain ⟨hop, h3, h7⟩ := fields_of_maskR h
    rw [decode_of_opcode_aluI (hop.trans ho), h3, h7, hd, fieldRs2]
  · rw [← shiftAmount_immShift f7 sh, ← hf]
    exact writesReg_writeResult rd _ s

end AluRows

/-! ### The obligations of 40_alu.md -/

/-- Settles O15: each row's match gives its decoder row, and its meaning is one ALU operation. -/
theorem registerRegisterResults : Obligations.RegisterRegisterResults := by
  unfold Obligations.RegisterRegisterResults
  refine ⟨?add, ?sub, ?sll, ?xor, ?srl, ?sra, ?or, ?and⟩
  case sll => exact regRegRule_of_aluReg rfl (fun _ _ _ => rfl) (fun _ _ _ => rfl) alu_sll_eq_mod
  case srl => exact regRegRule_of_aluReg rfl (fun _ _ _ => rfl) (fun _ _ _ => rfl) alu_srl_eq_mod
  case sra => exact regRegRule_of_aluReg rfl (fun _ _ _ => rfl) (fun _ _ _ => rfl) alu_sra_eq_mod
  all_goals exact regRegRule_of_aluReg rfl (fun _ _ _ => rfl) (fun _ _ _ => rfl) (fun _ _ => rfl)

/-- Settles O16: funct3 alone gives the decoder row, and the meaning is one ALU operation on imm_I. -/
theorem registerImmediateResults : Obligations.RegisterImmediateResults := by
  unfold Obligations.RegisterImmediateResults
  refine ⟨?addi, ?xori, ?ori, ?andi⟩
  all_goals exact regImmRule_of_aluImm rfl (fun _ _ _ _ _ => rfl) (fun _ _ _ => rfl) (fun _ _ => rfl)

/-- Settles O17: the rows as in O15, with the amount read from imm_I; the illegal words by the decoder's list. -/
theorem shiftImmediateResults : Obligations.ShiftImmediateResults := by
  unfold Obligations.ShiftImmediateResults
  refine ⟨?slli, ?srli, ?srai, fun w ho h3 h7 => ?illegal, ?immI⟩
  case illegal =>
    rw [decode_of_opcode_aluI ho, decodeAluI_eq_illegal_iff]
    exact ⟨.inr (.inr (.inl ⟨h3, h7⟩)), rfl⟩
  case immI => decide
  all_goals exact shiftImmRule_of_aluImm rfl (fun _ _ _ _ => rfl) (fun _ _ _ => rfl) (fun _ _ => rfl)

/-- Settles O18: the shift amount is the second operand modulo 32, and imm_I's is the field `shamt`. -/
theorem shiftsUseLowFiveBits : Obligations.ShiftsUseLowFiveBits := by
  unfold Obligations.ShiftsUseLowFiveBits
  refine ⟨fun a b => ⟨alu_sll_eq_mod a b, alu_srl_eq_mod a b, alu_sra_eq_mod a b⟩, fun f7 sh => ?_⟩
  rw [← shiftAmount_eq_mod, shiftAmount_immShift]

/-- Settles O19: what `sra` writes is the ALU's result, whose signed value `toInt_alu_sra` gives. -/
theorem arithmeticShiftDividesSignedValue : Obligations.ArithmeticShiftDividesSignedValue := by
  unfold Obligations.ArithmeticShiftDividesSignedValue
  intro rd rs1 rs2 s
  refine ⟨_, rfl, ?_⟩
  obtain ⟨hrd, -⟩ := writesReg_writeResult rd (alu .sra (s.getReg rs1) (s.getReg rs2)) s
  rw [hrd, toInt_alu_sra]

end Sys2Proof.Machine

namespace Sys2Proof

/-! ### The rows of `lw` and `sw`, by mask and match (R102) -/

/-- A word of `lw`'s row decodes to `lw` of its own fields. -/
theorem decode_of_mask_lw {w : Word} (h : w &&& 0x0000707F = 0x00002003) :
    decode w = .instr (.lw (fieldRd w) (fieldRs1 w) (fieldImmI w)) := by
  obtain ⟨hop, h3⟩ := fields_of_maskI h
  exact (decode_of_opcode_load hop).trans (if_pos h3)

/-- A word of `sw`'s row decodes to `sw` of its own fields: the S format's mask is the I format's. -/
theorem decode_of_mask_sw {w : Word} (h : w &&& 0x0000707F = 0x00002023) :
    decode w = .instr (.sw (fieldRs1 w) (fieldRs2 w) (fieldImmS w)) := by
  obtain ⟨hop, h3⟩ := fields_of_maskI h
  exact (decode_of_opcode_store hop).trans (if_pos h3)

end Sys2Proof

namespace Sys2Proof.Machine

/-! ### Data accesses (R56, R200 to R203) -/

section DataAccess
variable {s : State} {rs1 : Reg} {imm : BitVec 12}

/-- A load inside memory ends as an ALU instruction does, with the big-endian word as its result. -/
theorem exec_lw_of_inRange (rd : Reg) (h : InRange (effectiveAddr s rs1 imm) 4) :
    exec (.lw rd rs1 imm) s = .next (writeResult rd (be32 (s.memRead (effectiveAddr s rs1 imm) 4)) s) := if_pos h

/-- The fault of a load or store, as `EntersHalted` states it (R62). -/
theorem exec_entersHalted_of_outside {i : Instr} (hi : (∃ rd, i = .lw rd rs1 imm) ∨ ∃ rs2, i = .sw rs1 rs2 imm)
    (h : 65532 < (effectiveAddr s rs1 imm).toNat) :
    ∃ t, exec i s = .next t ∧ EntersHalted .dataOutOfRange (encode i) (effectiveAddr s rs1 imm) s t :=
  ⟨_, exec_of_not_inRange hi ((not_inRange_four_iff _).2 h), entersHalted_enterHalted _ _ _ s⟩

end DataAccess

@[simp] theorem effectiveAddr_advance (s : State) (r : Reg) (imm : BitVec 12) :
    effectiveAddr s.advance r imm = effectiveAddr s r imm := rfl

@[simp] theorem effectiveAddr_memWrite (s : State) (a : Word) (bs : List Byte) (r : Reg) (imm : BitVec 12) :
    effectiveAddr (s.memWrite a bs) r imm = effectiveAddr s r imm := rfl

@[simp] theorem memRead_advance (s : State) (a : Word) (n : Nat) : s.advance.memRead a n = s.memRead a n := rfl

/-- Each of a word's four bytes is read from where it was stored, the most significant one first. -/
theorem readByte_memWrite_bytesBe (s : State) (a v : Word) (k : Nat) (hk : k < 4) :
    (s.memWrite a (bytesBe v)).mem.readByte (a.toNat + k) = (bytesBe v)[k]'hk :=
  readByte_writeBytes_inside s.mem a.toNat (bytesBe v) k hk

/-- A word stored big-endian is read back by a big-endian read. -/
@[simp] theorem be32_memRead_memWrite_bytesBe (s : State) (a v : Word) :
    be32 ((s.memWrite a (bytesBe v)).memRead a 4) = v := by
  rw [bytesBe, memRead_memWrite_four]
  exact be32_bytesBe v

/-! ### The obligations of 41_load_store.md -/

/-- Settles O21: the row's mask gives the decoder row; the range test decides between one register write of the
big-endian word and the fault. -/
theorem loadWordResult : Obligations.LoadWordResult := by
  unfold Obligations.LoadWordResult
  refine ⟨fun w h => ⟨decode_of_mask_lw h, encode_of_decode (decode_of_mask_lw h)⟩, fun rd rs1 imm s ea hea => ?_⟩
  obtain rfl : ea = effectiveAddr s rs1 imm := hea
  refine ⟨fun h => ?inside, fun h => exec_entersHalted_of_outside (.inl ⟨rd, rfl⟩) h⟩
  case inside =>
    exact ⟨_, exec_lw_of_inRange rd ((inRange_four_iff _).2 h), writesReg_writeResult rd _ s⟩

/-- Settles O22: as O21, with a store of the four bytes that leaves every byte outside them alone. -/
theorem storeWordEffect : Obligations.StoreWordEffect := by
  unfold Obligations.StoreWordEffect
  refine ⟨fun w h => ⟨decode_of_mask_sw h, encode_of_decode (decode_of_mask_sw h)⟩, fun rs1 rs2 imm s ea hea => ?_⟩
  obtain rfl : ea = effectiveAddr s rs1 imm := hea
  refine ⟨fun h => ?inside, fun h => exec_entersHalted_of_outside (.inr ⟨rs2, rfl⟩) h⟩
  case inside =>
    have hbyte := readByte_memWrite_bytesBe s (effectiveAddr s rs1 imm) (s.getReg rs2)
    have hframe := readByte_writeBytes_outside s.mem (effectiveAddr s rs1 imm).toNat (bytesBe (s.getReg rs2))
    exact ⟨_, exec_sw_of_inRange rs2 ((inRange_four_iff _).2 h), hbyte 0 (by decide), hbyte 1 (by decide),
      hbyte 2 (by decide), hbyte 3 (by decide), hframe, rfl, fun _ => rfl, ⟨rfl, rfl, rfl⟩, ⟨rfl, rfl⟩⟩

/-- Settles O24: the store moves no register, so the load reads at the same address, and finds the stored word. -/
theorem storeThenLoadReturnsValue : Obligations.StoreThenLoadReturnsValue := by
  unfold Obligations.StoreThenLoadReturnsValue
  intro s rs1 rs2 rd base imm imm' heq hea
  have hin := (inRange_four_iff _).2 hea
  have hload : effectiveAddr (s.memWrite (effectiveAddr s rs1 imm) (bytesBe (s.getReg rs2))).advance base imm' =
      effectiveAddr s rs1 imm := by
    rw [effectiveAddr_advance, effectiveAddr_memWrite, heq]
  refine ⟨_, _, exec_sw_of_inRange rs2 hin, exec_lw_of_inRange rd (by rwa [hload]), ?_⟩
  obtain ⟨hrd, -⟩ := writesReg_writeResult rd _ _
  rw [hrd, hload, memRead_advance, be32_memRead_memWrite_bytesBe]

end Sys2Proof.Machine

namespace Sys2Proof

/-! ### The row of `jal`, by its mask (R86) -/

/-- A word that the J* mask takes to `mat` has `mat`'s opcode. -/
theorem opcode_of_maskJ {w mat : Word} (h : w &&& 0x0000007F = mat) : fieldOpcode w = fieldOpcode mat := by
  have hm := encodeJ_mask (fieldUpper w) (fieldRd w) (fieldOpcode w)
  rw [encodeJ_fields, h] at hm
  simp [hm]

/-- A 0x6F word decodes to `jal` of its own fields. -/
theorem decode_of_mask_jal {w : Word} (h : w &&& 0x0000007F = 0x0000006F) :
    decode w = .instr (.jal (fieldRd w) (fieldUpper w)) :=
  decode_of_opcode_jal (opcode_of_maskJ h)

end Sys2Proof

namespace Sys2Proof.Machine

/-! ### Where a branch goes, by its condition and EXT_BRANCH (R8, R220) -/

section BranchOn
variable {c : Cond} {rs1 rs2 : Reg} {s : State}

theorem branchOn_of_condHolds (off : BitVec 13) (h : condHolds c (s.getReg rs1) (s.getReg rs2) = true) :
    branchOn c rs1 rs2 off s = .next (s.setPc (branchTarget s off)) := by
  rw [branchOn, if_pos h]

theorem branchOn_of_not_condHolds (off : BitVec 13) (h : ¬ condHolds c (s.getReg rs1) (s.getReg rs2) = true) :
    branchOn c rs1 rs2 off s = .next s.advance := by
  rw [branchOn, if_neg h]

theorem extBranchOn_of_reject (w : Word) (off : BitVec 13) (h : s.extBranch = .reject) :
    extBranchOn w c rs1 rs2 off s = .next (s.enterHalted .unsupportedInstruction w 0) := by
  rw [extBranchOn, h, raiseFault]

theorem extBranchOn_of_rv32i (w : Word) (off : BitVec 13) (h : s.extBranch = .rv32i) :
    extBranchOn w c rs1 rs2 off s = branchOn c rs1 rs2 off s := by
  rw [extBranchOn, h]

end BranchOn

/-! ### A branch's rule from its decoder row, its comparator and its condition -/

section BranchRows
variable {mk : Reg → Reg → BitVec 13 → Instr} {mat : Word} {c : Cond} {taken : Word → Word → Prop}

theorem branchEncoding_of_decodeBranch (ho : fieldOpcode mat = 0x63)
    (hd : ∀ rs1 rs2 off, decodeBranch (fieldFunct3 mat) rs1 rs2 off = .instr (mk rs1 rs2 off)) :
    BranchEncoding mk mat := by
  intro w h
  obtain ⟨hop, h3⟩ := fields_of_maskI h
  have hdecode : decode w = .instr (mk (fieldRs1 w) (fieldRs2 w) (fieldImmB w)) := by
    rw [decode_of_opcode_branch (hop.trans ho), h3, hd]
  exact ⟨hdecode, encode_of_decode hdecode⟩

theorem branchEffect_of_branchOn {s : State}
    (hx : ∀ rs1 rs2 off, exec (mk rs1 rs2 off) s = branchOn c rs1 rs2 off s)
    (hc : ∀ a b, condHolds c a b = true ↔ taken a b) : BranchEffect mk taken s := by
  intro rs1 rs2 off
  rw [← hc, hx]
  refine ⟨fun h => ?taken, fun h => ?notTaken⟩
  case taken => exact ⟨_, branchOn_of_condHolds off h, movesPc_setPc _ s⟩
  case notTaken => exact ⟨_, branchOn_of_not_condHolds off h, movesPc_setPc _ s⟩

theorem extBranchRule_of_extBranchOn (ho : fieldOpcode mat = 0x63)
    (hd : ∀ rs1 rs2 off, decodeBranch (fieldFunct3 mat) rs1 rs2 off = .instr (mk rs1 rs2 off))
    (hx : ∀ rs1 rs2 off, exec (mk rs1 rs2 off) = extBranchOn (encode (mk rs1 rs2 off)) c rs1 rs2 off)
    (hc : ∀ a b, condHolds c a b = true ↔ taken a b) : ExtBranchRule mk mat taken := by
  refine ⟨branchEncoding_of_decodeBranch ho hd, fun s hs rs1 rs2 off => ?reject, fun s hs => ?rv32i⟩
  case reject =>
    rw [hx, extBranchOn_of_reject _ off hs]
    exact ⟨_, rfl, entersHalted_enterHalted _ _ _ s⟩
  case rv32i =>
    refine branchEffect_of_branchOn (fun rs1 rs2 off => ?_) hc
    rw [hx, extBranchOn_of_rv32i _ off hs]

end BranchRows

/-! ### The obligations of 42_control.md -/

/-- Settles O27: funct3 gives the decoder row, and the comparator is equality or its negation. -/
theorem beqBneTargets : Obligations.BeqBneTargets := by
  unfold Obligations.BeqBneTargets
  refine ⟨⟨?beq, fun s => ?beqEffect⟩, ?bne, fun s => ?bneEffect⟩
  case beq | bne => exact branchEncoding_of_decodeBranch rfl (fun _ _ _ => rfl)
  case beqEffect | bneEffect => exact branchEffect_of_branchOn (fun _ _ _ => rfl) (fun _ _ => decide_eq_true_iff)

/-- Settles O28: as O27 under `rv32i`, with the signed or unsigned comparator; under `reject` the shared fault. -/
theorem extBranchesFollowParameter : Obligations.ExtBranchesFollowParameter := by
  unfold Obligations.ExtBranchesFollowParameter
  refine ⟨?blt, ?bge, ?bltu, ?bgeu⟩
  all_goals
    exact extBranchRule_of_extBranchOn rfl (fun _ _ _ => rfl) (fun _ _ _ => rfl) (fun _ _ => decide_eq_true_iff)

/-- Settles O29: the word that `jal` hands to JAL_OFFSET is its encoding, which is the decoded word
(`encode_of_decode`). -/
theorem jumpLinksAndMoves : Obligations.JumpLinksAndMoves := by
  unfold Obligations.JumpLinksAndMoves
  intro w h
  have hdecode := decode_of_mask_jal h
  refine ⟨hdecode, fun s => ⟨_, rfl, ?_⟩⟩
  have hword : encode (.jal (fieldRd w) (w.extractLsb' 12 20)) = w := encode_of_decode hdecode
  rw [hword]
  exact writesReg_setReg_setPc (fieldRd w) (linkValue s) (jumpTarget s w) s

end Sys2Proof.Machine

namespace Sys2Proof

/-! ### The rows of `halt`, `print` and `input` (R87, R88) -/

/-- A word that the IO mask takes to `mat` has `mat`'s opcode and bits 31:12. -/
theorem fields_of_maskIo {w mat : Word} (h : w &&& 0xFFFFF07F = mat) :
    fieldOpcode w = fieldOpcode mat ∧ fieldUpper w = fieldUpper mat := by
  have hm := encodeJ_ioMask (fieldUpper w) (fieldRd w) (fieldOpcode w)
  rw [encodeJ_fields, h] at hm
  simp [hm]

/-- A word of `print`'s row decodes to `print` of its own rd. -/
theorem decode_of_mask_print {w : Word} (h : w &&& 0xFFFFF07F = 0x0000000B) :
    decode w = .instr (.print (fieldRd w)) := by
  obtain ⟨hop, hup⟩ := fields_of_maskIo h
  exact (decode_of_opcode_print hop).trans (if_pos hup)

/-- `halt` has one word: a word that decodes to it is its encoding. -/
theorem decode_eq_halt_iff {w : Word} : decode w = .instr .halt ↔ w = 0 := by
  refine ⟨fun h => (encode_of_decode h).symm, ?_⟩
  rintro rfl
  rfl

end Sys2Proof

namespace Sys2Proof.Machine

/-! ### Appending a record and advancing (R251) -/

/-- One more record and the pc's advance: nothing else changes. -/
theorem emit_advance_frame (r : OutRecord) (s : State) :
    (s.emit r).advance.output = s.output ++ [r] ∧ (s.emit r).advance.pc = s.pc + 4 ∧
      (s.emit r).advance.inputs = s.inputs ∧ SameRegs s (s.emit r).advance ∧ SameMemory s (s.emit r).advance ∧
      SameControl s (s.emit r).advance :=
  ⟨rfl, rfl, rfl, fun _ => rfl, fun _ => rfl, ⟨rfl, rfl, rfl⟩⟩

/-! ### The obligations of 43_system_io.md -/

/-- Settles O31: `halt`'s encoding is the zero word, and its meaning is the shared entry into HALTED. -/
theorem haltStopsMachine : Obligations.HaltStopsMachine := by
  unfold Obligations.HaltStopsMachine
  exact ⟨fun w => decode_eq_halt_iff, fun s =>
    ⟨_, rfl, entersHalted_enterHalted .halt 0 0 s, enterHalted_haltRec s .halt 0 0⟩⟩

/-- Settles O32: the row's mask gives the decoder row; the meaning appends one record and advances; the rendered text
is `renderPrint`'s own. -/
theorem printEmitsRegister : Obligations.PrintEmitsRegister := by
  unfold Obligations.PrintEmitsRegister
  refine ⟨fun w h => decode_of_mask_print h, fun rd s => ⟨_, rfl, ?frame⟩, fun i v => rfl⟩
  case frame => exact emit_advance_frame (.print rd (s.getReg rd)) s

end Sys2Proof.Machine

namespace Sys2Proof.Machine

/-! ### Instructions whose meaning can fault, and the decoder's variant of each (R95, R8, R62) -/

/-- One of the four branches that EXT_BRANCH governs (R8). -/
def IsExtBranch (i : Instr) : Prop :=
  ∃ rs1 rs2 off, i = .blt rs1 rs2 off ∨ i = .bge rs1 rs2 off ∨ i = .bltu rs1 rs2 off ∨ i = .bgeu rs1 rs2 off

/-- A load or store whose effective address is `x[rs1]` plus `imm`. -/
def IsAccess (rs1 : Reg) (imm : BitVec 12) (i : Instr) : Prop :=
  (∃ rd, i = .lw rd rs1 imm) ∨ ∃ rs2, i = .sw rs1 rs2 imm

section Variants
variable {i : Instr} {w : Word}

theorem decodeVariant_of_instr (hd : decode w = .instr i) : decodeVariant w = variantOf i := by
  rw [decodeVariant, hd]

/-- A word whose variant is not `illegal` decodes to an instruction of that variant. -/
theorem exists_instr_of_decodeVariant (h : ∀ k, decodeVariant w ≠ .illegal k) :
    ∃ i, decode w = .instr i ∧ decodeVariant w = variantOf i := by
  cases hd : decode w with
  | instr i => exact ⟨i, rfl, decodeVariant_of_instr hd⟩
  | illegal k => exact absurd (by rw [decodeVariant, hd]) (h k)

/-- The governed branches are those whose condition is neither equality nor its negation. -/
theorem isExtBranch_iff_variantOf :
    IsExtBranch i ↔ ∃ c rs1 rs2 off, variantOf i = .branch c rs1 rs2 off ∧ c ≠ .eq ∧ c ≠ .ne := by
  constructor
  · rintro ⟨rs1, rs2, off, rfl | rfl | rfl | rfl⟩ <;> exact ⟨_, _, _, _, rfl, by decide, by decide⟩
  · rintro ⟨c, rs1, rs2, off, hv, heq, hne⟩
    cases i with
    | beq => cases hv; exact absurd rfl heq
    | bne => cases hv; exact absurd rfl hne
    | blt rs1 rs2 off | bge rs1 rs2 off | bltu rs1 rs2 off | bgeu rs1 rs2 off => exact ⟨rs1, rs2, off, by simp⟩
    | _ => cases hv

/-- The variant of an access holds the sign-extended immediate. -/
theorem isAccess_iff_variantOf {rs1 : Reg} {off : Word} : (∃ imm, off = sext12 imm ∧ IsAccess rs1 imm i) ↔
    (∃ rd, variantOf i = .lw rd rs1 off) ∨ ∃ rs2, variantOf i = .sw rs1 rs2 off := by
  constructor
  · rintro ⟨imm, rfl, ⟨rd, rfl⟩ | ⟨rs2, rfl⟩⟩
    · exact .inl ⟨rd, rfl⟩
    · exact .inr ⟨rs2, rfl⟩
  · rintro (⟨rd, hv⟩ | ⟨rs2, hv⟩)
    · cases i with
      | lw rd rs1 imm => cases hv; exact ⟨imm, rfl, .inl ⟨rd, rfl⟩⟩
      | _ => cases hv
    · cases i with
      | sw rs1 rs2 imm => cases hv; exact ⟨imm, rfl, .inr ⟨rs2, rfl⟩⟩
      | _ => cases hv

/-- A governed branch under `reject` enters HALTED with its own encoding (R8). -/
theorem exec_of_reject {s : State} (hi : IsExtBranch i) (he : s.extBranch = .reject) :
    exec i s = .next (s.enterHalted .unsupportedInstruction (encode i) 0) := by
  obtain ⟨rs1, rs2, off, rfl | rfl | rfl | rfl⟩ := hi <;> exact extBranchOn_of_reject _ off he

end Variants

/-! ### Why a step enters HALTED (R281 to R284) -/

/-- The six reasons to enter HALTED, by the decoded instruction, with the cause, word and address each records. -/
inductive HaltReason (s : State) : Cause → Word → Word → Prop where
  /-- The normal stop. -/
  | halt {w : Word} (hf : fetch s = some w) (hd : decode w = .instr .halt) : HaltReason s .halt 0 0
  /-- A word that is no instruction. -/
  | illegal {w : Word} {k : Illegal} (hf : fetch s = some w) (hd : decode w = .illegal k) :
      HaltReason s (causeOfIllegal k) w 0
  /-- A branch that EXT_BRANCH rejects. -/
  | rejected {w : Word} {i : Instr} (hf : fetch s = some w) (hd : decode w = .instr i) (hi : IsExtBranch i)
      (he : s.extBranch = .reject) : HaltReason s .unsupportedInstruction w 0
  /-- No word to fetch. -/
  | noFetch (hf : fetch s = none) : HaltReason s .fetchOutOfRange 0 0
  /-- A load or store outside memory. -/
  | outside {w : Word} {i : Instr} {rs1 : Reg} {imm : BitVec 12} (hf : fetch s = some w) (hd : decode w = .instr i)
      (hi : IsAccess rs1 imm i) (hr : ¬ InRange (effectiveAddr s rs1 imm) 4) :
      HaltReason s .dataOutOfRange w (effectiveAddr s rs1 imm)

section HaltReason
variable {s t : State} {c : Cause} {hw ha : Word}

/-- A reason to halt is what the step of a running machine answers. -/
theorem step_of_haltReason (hr : s.running = true) (h : HaltReason s c hw ha) :
    step s = .next (s.enterHalted c hw ha) := by
  cases h with
  | halt hf hd => exact step_of_instr hr hf hd
  | illegal hf hd => exact step_of_illegal hr hf hd
  | rejected hf hd hi he => rw [step_of_instr hr hf hd, exec_of_reject hi he, encode_of_decode hd]
  | noFetch hf => exact step_of_fetch_none hr hf
  | outside hf hd hi hout => rw [step_of_instr hr hf hd, exec_of_not_inRange hi hout, encode_of_decode hd]

/-- A meaning leaves the running flag and the halt record alone, or enters HALTED for one of the reasons. -/
theorem exec_running_or_haltReason {w : Word} {i : Instr} (hf : fetch s = some w) (hd : decode w = .instr i)
    (h : exec i s = .next t) :
    (t.running = s.running ∧ t.haltRec = s.haltRec) ∨
      ∃ c hw ha, HaltReason s c hw ha ∧ t = s.enterHalted c hw ha := by
  cases exec_shape h with
  | halts hi => exact .inr ⟨_, _, _, .halt hf (hi ▸ hd), rfl⟩
  | rejects he hi => exact .inr ⟨_, _, _, .rejected hf hd hi he, by rw [encode_of_decode hd]⟩
  | outside rs1 imm hi hr => exact .inr ⟨_, _, _, .outside hf hd hi hr, by rw [encode_of_decode hd]⟩
  | _ => exact .inl ⟨rfl, rfl⟩

/-- The step of a running machine keeps it running with its halt record, or enters HALTED for one of the reasons. -/
theorem step_running_or_haltReason (hr : s.running = true) (h : step s = .next t) :
    (t.running = true ∧ t.haltRec = s.haltRec) ∨
      ∃ c hw ha, HaltReason s c hw ha ∧ t = s.enterHalted c hw ha := by
  obtain ⟨hs, -⟩ | ⟨-, hf, ht⟩ | ⟨-, w, k, hf, hd, ht⟩ | ⟨-, w, i, hf, hd, hx⟩ := step_cases h
  · exact absurd hr (by simp [hs])
  · exact .inr ⟨_, _, _, .noFetch hf, ht⟩
  · exact .inr ⟨_, _, _, .illegal hf hd, ht⟩
  · rw [← hr]
    exact exec_running_or_haltReason hf hd hx

/-- Entering HALTED for a reason leaves a state that shows the reason: nothing it depends on has changed. -/
theorem haltExplained_enterHalted (h : HaltReason s c hw ha) : HaltExplained (s.enterHalted c hw ha) := by
  refine ⟨rfl, ?_⟩
  rw [fetch_enterHalted]
  cases h with
  | halt hf hd => simp [hf, hd]
  | illegal hf hd => simp [hf, hd]
  | rejected hf hd hi he => obtain ⟨rs1, rs2, off, rfl | rfl | rfl | rfl⟩ := hi <;> simp [hf, hd, he]
  | noFetch hf => simp [hf]
  | outside hf hd hi hr => obtain ⟨rd, rfl⟩ | ⟨rs2, rfl⟩ := hi <;> simpa [hf, hd] using hr

theorem fetch_eq_none_iff : fetch s = none ↔ 65532 < s.pc.toNat := by
  rw [← not_inRange_four_iff]
  exact ⟨fun h hin => by simp [fetch_of_inRange hin] at h, fetch_of_not_inRange⟩

/-- A reason to halt meets its row of the cause table. -/
theorem causeApplies_of_haltReason (h : HaltReason s c hw ha) : CauseApplies s c.code hw ha := by
  cases h with
  | halt hf hd => exact .inl ⟨rfl, rfl, rfl, _, hf, hd⟩
  | @illegal w k hf hd =>
    cases k with
    | unknownOpcode => exact .inr (.inl ⟨rfl, rfl, hf, hd⟩)
    | illegalFunct => exact .inr (.inr (.inl ⟨rfl, rfl, hf, hd⟩))
  | rejected hf hd hi he =>
    refine .inr (.inr (.inr (.inl ⟨rfl, rfl, hf, he, ?_⟩)))
    rw [decodeVariant_of_instr hd]
    exact isExtBranch_iff_variantOf.1 hi
  | noFetch hf => exact .inr (.inr (.inr (.inr (.inl ⟨rfl, rfl, rfl, fetch_eq_none_iff.1 hf⟩))))
  | @outside w i rs1 imm hf hd hi hr =>
    refine .inr (.inr (.inr (.inr (.inr ⟨rfl, hf, (not_inRange_four_iff _).1 hr, rs1, sext12 imm, rfl, ?_⟩))))
    rw [decodeVariant_of_instr hd]
    exact isAccess_iff_variantOf.1 ⟨imm, rfl, hi⟩

/-- Each row of the cause table is a reason to halt. -/
theorem haltReason_of_causeApplies {code : BitVec 3} (h : CauseApplies s code hw ha) :
    ∃ c : Cause, c.code = code ∧ HaltReason s c hw ha := by
  obtain ⟨rfl, rfl, rfl, w, hf, hd⟩ | ⟨rfl, rfl, hf, hd⟩ | ⟨rfl, rfl, hf, hd⟩ |
    ⟨rfl, rfl, hf, he, c, rs1, rs2, off, hv, hc⟩ | ⟨rfl, rfl, rfl, hpc⟩ | ⟨rfl, hf, hout, rs1, off, rfl, hv⟩ := h
  · exact ⟨.halt, rfl, .halt hf hd⟩
  · exact ⟨.unknownOpcode, rfl, .illegal hf hd⟩
  · exact ⟨.illegalFunct, rfl, .illegal hf hd⟩
  · obtain ⟨i, hd, hi⟩ := exists_instr_of_decodeVariant (w := hw) (by simp [hv])
    have hext : IsExtBranch i := isExtBranch_iff_variantOf.2 ⟨c, rs1, rs2, off, hi ▸ hv, hc⟩
    exact ⟨.unsupportedInstruction, rfl, .rejected hf hd hext he⟩
  · exact ⟨.fetchOutOfRange, rfl, .noFetch (fetch_eq_none_iff.2 hpc)⟩
  · obtain ⟨i, hd, hi⟩ := exists_instr_of_decodeVariant (w := hw) fun k hk => by simp [hk] at hv
    rw [hi] at hv
    obtain ⟨imm, rfl, hacc⟩ := isAccess_iff_variantOf.2 hv
    exact ⟨.dataOutOfRange, rfl, .outside hf hd hacc ((not_inRange_four_iff _).2 hout)⟩

end HaltReason

/-! ### Every step keeps memory canonical and the halt record explained (R31, R34, R283) -/

section Inv
variable {s t : State}

theorem exec_keeps_wf {i : Instr} (h : exec i s = .next t) (hm : s.mem.wf = true) : t.mem.wf = true := by
  cases exec_shape h with
  | stores rs1 rs2 imm hi hr => exact wf_writeBytes _ hr hm
  | _ => exact hm

theorem step_keeps_wf (h : step s = .next t) (hm : s.mem.wf = true) : t.mem.wf = true := by
  obtain ⟨-, rfl⟩ | ⟨-, -, rfl⟩ | ⟨-, w, k, -, -, rfl⟩ | ⟨-, w, i, -, -, hx⟩ := step_cases h
  · exact hm
  · exact hm
  · exact hm
  · exact exec_keeps_wf hx hm

/-- The invariant of a running machine: nothing is to be explained. -/
theorem inv_of_running (hm : s.mem.wf = true) (hr : s.running = true) (hz : s.haltRec = HaltRecord.zero) : Inv s :=
  ⟨hm, fun _ => hz, fun hf => absurd hr (by simp [hf])⟩

/-- The invariant of a machine in HALTED. -/
theorem inv_of_halted (hm : s.mem.wf = true) (hr : s.running = false) (he : HaltExplained s) : Inv s :=
  ⟨hm, fun ht => absurd hr (by simp [ht]), fun _ => he⟩

/-- In HALTED a step answers the same state (log entry 1). -/
theorem step_of_not_running (hr : s.running = false) : step s = .next s := by
  simp [step, hr, idleWhenHalted]

theorem step_keeps_inv (hs : Inv s) (h : step s = .next t) : Inv t := by
  cases hr : s.running with
  | false =>
    cases (step_of_not_running hr).symm.trans h
    exact hs
  | true =>
    obtain ⟨hm, hzero, -⟩ := hs
    have hmt := step_keeps_wf h hm
    obtain ⟨hrt, hrec⟩ | ⟨c, hw, ha, hreason, rfl⟩ := step_running_or_haltReason hr h
    · exact inv_of_running hmt hrt (hrec.trans (hzero hr))
    · exact inv_of_halted hmt rfl (haltExplained_enterHalted hreason)

end Inv

/-! ### The obligations of 60_exceptions.md on the machine -/

/-- Settles O39: a step keeps memory canonical, and it keeps the machine running with its zero record or enters HALTED
for a reason that the state still shows. -/
theorem stepKeepsInvariant : Obligations.StepKeepsInvariant := by
  unfold Obligations.StepKeepsInvariant
  intro s t hs h
  exact step_keeps_inv hs h

/-- Settles O36: a step that ends in HALTED is the shared entry into it. -/
theorem faultsArePrecise : Obligations.FaultsArePrecise := by
  unfold Obligations.FaultsArePrecise
  intro s t hr h ht
  obtain ⟨hrun, -⟩ | ⟨c, hw, ha, -, rfl⟩ := step_running_or_haltReason hr h
  · exact absurd hrun (by simp [ht])
  · exact ⟨rfl, rfl⟩

/-- Settles O37: the rows of the cause table are the reasons to halt, and each reason fixes the step's answer, so its
record too. -/
theorem haltExactlyWhenCauseApplies : Obligations.HaltExactlyWhenCauseApplies := by
  unfold Obligations.HaltExactlyWhenCauseApplies
  intro s t hr h
  have hanswer {code hw ha} (hc : CauseApplies s code hw ha) :
      t.running = false ∧ t.haltRec = ⟨code, s.pc, hw, ha⟩ := by
    obtain ⟨c, rfl, hreason⟩ := haltReason_of_causeApplies hc
    cases (step_of_haltReason hr hreason).symm.trans h
    exact ⟨rfl, rfl⟩
  refine ⟨⟨fun ht => ?_, fun ⟨_, _, _, hc⟩ => (hanswer hc).1⟩, fun _ _ _ hc => (hanswer hc).2⟩
  obtain ⟨hrun, -⟩ | ⟨c, hw, ha, hreason, -⟩ := step_running_or_haltReason hr h
  · exact absurd hrun (by simp [ht])
  · exact ⟨_, _, _, causeApplies_of_haltReason hreason⟩

end Sys2Proof.Machine

namespace Sys2Proof.Machine

/-! ### Every instruction has an answer (30_encoding.md rule R110) -/

section Answers
variable (s : State)

/-- No meaning is refused and none ends in a fault of the model. -/
theorem exists_exec_eq_next (i : Instr) : ∃ t, exec i s = .next t := by
  have hext (w : Word) (c : Cond) (rs1 rs2 : Reg) (off : BitVec 13) :
      ∃ t, extBranchOn w c rs1 rs2 off s = .next t := by
    cases he : s.extBranch with
    | reject => exact ⟨_, extBranchOn_of_reject w off he⟩
    | rv32i => exact ⟨_, extBranchOn_of_rv32i w off he⟩
  cases i with
  | lw rd rs1 imm =>
    by_cases h : InRange (effectiveAddr s rs1 imm) 4
    · exact ⟨_, exec_lw_of_inRange rd h⟩
    · exact ⟨_, exec_of_not_inRange (.inl ⟨rd, rfl⟩) h⟩
  | sw rs1 rs2 imm =>
    by_cases h : InRange (effectiveAddr s rs1 imm) 4
    · exact ⟨_, exec_sw_of_inRange rs2 h⟩
    · exact ⟨_, exec_of_not_inRange (.inr ⟨rs2, rfl⟩) h⟩
  | blt | bge | bltu | bgeu => exact hext ..
  | input rd =>
    cases hs : s.inputs with
    | nil => exact ⟨s, by simp [exec, execInput, hs, holdForInput]⟩
    | cons v rest => exact ⟨completeInput rd v rest s, by simp [exec, execInput, hs]⟩
  | _ => exact ⟨_, rfl⟩

theorem exists_step_eq_next : ∃ t, step s = .next t := by
  cases hr : s.running with
  | false => exact ⟨s, step_of_not_running hr⟩
  | true =>
    cases hf : fetch s with
    | none => exact ⟨_, step_of_fetch_none hr hf⟩
    | some w =>
      cases hd : decode w with
      | illegal k => exact ⟨_, step_of_illegal hr hf hd⟩
      | instr i =>
        rw [step_of_instr hr hf hd]
        exact exists_exec_eq_next s i

end Answers

/-! ### The host's moves (R292, R320, R321) -/

/-- From `s` to `t` the bytes of an image are copied to memory from offset 0, and nothing else changes (R321). -/
def CopiesImage (bytes : List Byte) (s t : State) : Prop :=
  (∀ i (h : i < bytes.length), t.mem.readByte i = bytes[i]) ∧
    (∀ a, bytes.length ≤ a → t.mem.readByte a = s.mem.readByte a) ∧
    SameRegs s t ∧ t.pc = s.pc ∧ SameControl s t ∧ SameIo s t

theorem copiesImage_loadImage (bytes : List Byte) (s : State) : CopiesImage bytes s (s.loadImage bytes) := by
  refine ⟨fun i h => ?inside, fun a h => ?outside, fun _ => rfl, rfl, ⟨rfl, rfl, rfl⟩, ⟨rfl, rfl⟩⟩
  case inside =>
    have hi := readByte_writeBytes_inside s.mem Config.imageBase bytes i h
    rwa [Config.imageBase, Nat.zero_add] at hi
  case outside =>
    exact readByte_writeBytes_outside s.mem Config.imageBase bytes a (.inr (by rwa [Config.imageBase, Nat.zero_add]))

/-- Loading an image that fits keeps memory canonical. -/
theorem wf_loadImage {bytes : List Byte} {s : State} (hfit : bytes.length ≤ Config.imageMax)
    (hm : s.mem.wf = true) : (s.loadImage bytes).mem.wf = true := by
  refine wf_writeBytes bytes ?_ hm
  rwa [Config.imageBase, Nat.zero_add]

section Moves
variable {x y : Session}

theorem phase_ne_started_iff : x.phase ≠ .started ↔ x.phase = .afterReset ∨ x.phase = .loaded := by
  cases x.phase <;> simp

/-- The block can step exactly when it is started, running and not held: `step` always has an answer. -/
theorem isSome_blockStep_iff : (blockStep x).isSome = true ↔
    x.phase = .started ∧ x.machine.running = true ∧ inputHeld x.machine = false := by
  rw [Option.isSome_iff_exists]
  refine ⟨fun ⟨y, hy⟩ => (blockStep_eq_some.1 hy).1, fun h => ?_⟩
  obtain ⟨t, ht⟩ := exists_step_eq_next x.machine
  exact ⟨⟨t, .started⟩, blockStep_eq_some.2 ⟨h, rfl, ht⟩⟩

/-- The block's step after a value is supplied completes the held `input` with it (R252). -/
theorem blockStep_supply {s : State} (h : inputHeld s = true) (v : Word) : ∃ w rd, fetch s = some w ∧
    decode w = .instr (.input rd) ∧
      blockStep ⟨s.supply v, .started⟩ = some ⟨completeInput rd v [] (s.supply v), .started⟩ := by
  obtain ⟨hr, -, -⟩ := (inputHeld_iff s).1 h
  obtain ⟨w, rd, hf, hd, hstep⟩ := step_supply h v
  exact ⟨w, rd, hf, hd, blockStep_eq_some.2 ⟨⟨rfl, hr, inputHeld_supply s v⟩, rfl, hstep⟩⟩

end Moves

/-! ### The session's invariant (R320 to R322) -/

section SessionInv
variable {x y : Session}

/-- A machine that differs from its reset values in memory alone is running with a zero halt record. -/
theorem inv_of_resetAll {s : State} (hm : s.mem.wf = true) (hs : { s with mem := [] } = s.resetAll) : Inv s := by
  have hr : s.running = true := congrArg State.running hs
  have hz : s.haltRec = HaltRecord.zero := congrArg State.haltRec hs
  exact inv_of_running hm hr hz

/-- Once the machine is started, its own invariant is the session's. -/
theorem sessionInv_of_started (hp : x.phase = .started) (h : Inv x.machine) : SessionInv x :=
  ⟨h, fun hp' => by simp [hp] at hp', fun hp' => by simp [hp] at hp'⟩

/-- Until the machine is started, it differs from its reset values in memory alone. -/
theorem SessionInv.eq_resetAll (h : SessionInv x) (hp : x.phase ≠ .started) :
    { x.machine with mem := [] } = x.machine.resetAll := by
  obtain ⟨-, hreset, hloaded⟩ := h
  obtain hp | hp := phase_ne_started_iff.1 hp
  · rw [hreset hp]
    rfl
  · exact hloaded hp

theorem sessionInv_hostReset (x : Session) : SessionInv (hostReset x) :=
  ⟨inv_of_resetAll rfl rfl, fun _ => rfl, fun hp => by simp [hostReset] at hp⟩

theorem hostLoad_keeps_sessionInv {bytes : List Byte} (hx : SessionInv x) (h : hostLoad bytes x = some y) :
    SessionInv y := by
  obtain ⟨⟨hp, hfit⟩, rfl⟩ := hostLoad_eq_some.1 h
  have hsame : { x.machine.loadImage bytes with mem := [] } = (x.machine.loadImage bytes).resetAll := hx.eq_resetAll hp
  obtain ⟨⟨hm, -⟩, -⟩ := hx
  exact ⟨inv_of_resetAll (wf_loadImage hfit hm) hsame, fun hp' => by simp at hp', fun _ => hsame⟩

theorem hostRun_keeps_sessionInv (hx : SessionInv x) (h : hostRun x = some y) : SessionInv y := by
  obtain ⟨-, rfl⟩ := hostRun_eq_some.1 h
  obtain ⟨hinv, -⟩ := hx
  exact sessionInv_of_started rfl hinv

/-- A held machine runs, so that the channel's new value leaves nothing to explain. -/
theorem supplyInput_keeps_sessionInv {v : Word} (hx : SessionInv x) (h : supplyInput v x = some y) :
    SessionInv y := by
  obtain ⟨⟨-, hheld⟩, rfl⟩ := supplyInput_eq_some.1 h
  obtain ⟨hr, -⟩ := (inputHeld_iff _).1 hheld
  obtain ⟨⟨hm, hzero, -⟩, -⟩ := hx
  exact sessionInv_of_started rfl (inv_of_running hm hr (hzero hr))

theorem hostMove_keeps_sessionInv {m : HostMove} (hx : SessionInv x) (h : hostMove m x = some y) : SessionInv y := by
  cases m with
  | reset => cases h; exact sessionInv_hostReset x
  | load bytes => exact hostLoad_keeps_sessionInv hx h
  | run => exact hostRun_keeps_sessionInv hx h
  | supplyInput v => exact supplyInput_keeps_sessionInv hx h

theorem blockStep_keeps_sessionInv (hx : SessionInv x) (h : blockStep x = some y) : SessionInv y := by
  obtain ⟨-, hp, hstep⟩ := blockStep_eq_some.1 h
  obtain ⟨hinv, -⟩ := hx
  exact sessionInv_of_started hp (step_keeps_inv hinv hstep)

end SessionInv

/-! ### The obligations of 60_exceptions.md on the host -/

/-- Settles O48, move by move, from what each move of the host gives and what the block's step after a supply is. -/
theorem hostActsOnlyWhenAllowed : Obligations.HostActsOnlyWhenAllowed := by
  unfold Obligations.HostActsOnlyWhenAllowed
  intro x
  refine ⟨rfl, fun bytes => ⟨?load, fun y hy => ?loaded⟩, ⟨?run, fun y hy => ?ran⟩,
    fun v => ⟨?supply, fun y hy => ?supplied⟩, ⟨rfl, rfl⟩, isSome_blockStep_iff, fun y hy => ?stepped⟩
  case load =>
    simp [hostMove, Option.isSome_iff_exists, hostLoad_eq_some, phase_ne_started_iff, Config.imageMax, Config.memSize]
  case loaded =>
    obtain ⟨-, rfl⟩ := hostLoad_eq_some.1 hy
    exact ⟨rfl, rfl⟩
  case run => simp [hostMove, Option.isSome_iff_exists, hostRun_eq_some]
  case ran =>
    obtain ⟨-, rfl⟩ := hostRun_eq_some.1 hy
    exact ⟨rfl, rfl⟩
  case supply => simp [hostMove, Option.isSome_iff_exists, supplyInput_eq_some]
  case supplied =>
    obtain ⟨⟨-, hheld⟩, rfl⟩ := supplyInput_eq_some.1 hy
    obtain ⟨w, rd, -, -, hz⟩ := blockStep_supply hheld v
    refine ⟨rfl, _, rd, hz, ?_, fun r hr => ?_, rfl⟩
    · rw [getReg_completeInput, if_pos rfl]
    · rw [getReg_completeInput, if_neg hr, getReg_supply]
  case stepped =>
    obtain ⟨-, hp, hstep⟩ := blockStep_eq_some.1 hy
    exact ⟨hp, hstep⟩

/-- Settles O49: `load` and `run` ask for another phase, and a held machine's channel is empty. -/
theorem hostHasNoOtherMove : Obligations.HostHasNoOtherMove := by
  unfold Obligations.HostHasNoOtherMove
  intro m x y hp h
  cases m with
  | reset => cases h; exact .inl ⟨rfl, rfl⟩
  | load bytes =>
    obtain ⟨⟨hne, -⟩, -⟩ := hostLoad_eq_some.1 h
    exact absurd hp hne
  | run =>
    obtain ⟨hl, -⟩ := hostRun_eq_some.1 h
    cases hp.symm.trans hl
  | supplyInput v =>
    obtain ⟨⟨-, hheld⟩, rfl⟩ := supplyInput_eq_some.1 h
    obtain ⟨-, hempty, -⟩ := (inputHeld_iff _).1 hheld
    exact .inr ⟨v, rfl, hheld, rfl, by simp [hempty], rfl, rfl, fun _ => rfl, fun _ => rfl, ⟨rfl, rfl, rfl⟩⟩

/-- Settles O50: reset establishes the session's invariant, and each move of the host and the block's step keep it. -/
theorem sessionKeepsInvariant : Obligations.SessionKeepsInvariant := by
  unfold Obligations.SessionKeepsInvariant
  refine ⟨sessionInv_hostReset, fun x y hx h => ?_⟩
  obtain ⟨m, h⟩ | h := h
  · exact hostMove_keeps_sessionInv hx h
  · exact blockStep_keeps_sessionInv hx h

/-- Settles O51: a load in phase loaded is taken, and it copies the image whatever memory held. -/
theorem secondLoadCopiesOver : Obligations.SecondLoadCopiesOver := by
  unfold Obligations.SecondLoadCopiesOver
  intro bytes x hp hfit
  have hload := hostLoad_eq_some.2 ⟨⟨phase_ne_started_iff.2 (.inr hp), hfit⟩, rfl⟩
  exact ⟨_, hload, rfl, copiesImage_loadImage bytes x.machine⟩

end Sys2Proof.Machine

namespace Sys2Proof.Machine

/-! ### Reset, and which images a load takes (R320, R321) -/

section ResetAndLoad
variable {x : Session} {bytes : List Byte}

/-- Memory after the host's reset lists no byte (R44). -/
@[simp] theorem readByte_resetAll (s : State) (a : Nat) : s.resetAll.mem.readByte a = 0 := rfl

/-- An image that does not fit is refused in every session. -/
theorem hostLoad_of_not_fits (h : Config.imageMax < bytes.length) : hostLoad bytes x = none := by
  refine Option.eq_none_iff_forall_ne_some.2 fun y hy => ?_
  obtain ⟨⟨-, hfit⟩, -⟩ := hostLoad_eq_some.1 hy
  exact absurd hfit (Nat.not_le.2 h)

/-- The start-up sequence ends at the load of an image that does not fit: the machine is not started. -/
theorem startUp_of_not_fits (h : Config.imageMax < bytes.length) : startUp bytes x = none := by
  rw [startUp, hostLoad_of_not_fits h, Option.bind_none]

end ResetAndLoad

/-! ### The obligations of 70_reset_and_hazards.md -/

/-- Settles O3: a load that is taken copies the image (`copiesImage_loadImage`), and the start-up sequence loads into
a memory that reset has cleared. -/
theorem loadCopiesImage : Obligations.LoadCopiesImage := by
  unfold Obligations.LoadCopiesImage
  intro bytes x
  refine ⟨fun h => ⟨hostLoad_of_not_fits h, startUp_of_not_fits h⟩, fun hfit => ⟨fun hp => ?load, ?startUp⟩⟩
  case load =>
    have hload := hostLoad_eq_some.2 ⟨⟨phase_ne_started_iff.2 (.inl hp), hfit⟩, rfl⟩
    exact ⟨_, hload, rfl, copiesImage_loadImage bytes x.machine⟩
  case startUp =>
    obtain ⟨himage, hrest, -⟩ := copiesImage_loadImage bytes x.machine.resetAll
    exact ⟨_, startUp_eq_some.2 ⟨hfit, rfl⟩, himage, fun a ha => (hrest a ha).trans (readByte_resetAll _ a)⟩

/-- Settles O2: each field of the reset machine is its reset value, and a step in HALTED answers the same state. -/
theorem hostResetFromAnyState : Obligations.HostResetFromAnyState := by
  unfold Obligations.HostResetFromAnyState
  refine ⟨fun x => ?reset, fun s t hr h => ?halted⟩
  case reset =>
    exact ⟨rfl, getReg_resetAll x.machine, rfl, rfl, rfl, readByte_resetAll x.machine, rfl⟩
  case halted =>
    cases (step_of_not_running hr).symm.trans h
    exact hr

end Sys2Proof.Machine

namespace Sys2Proof

/-! ### The row of `input`, and words written out from their instructions (R87, R96) -/

/-- A word of `input`'s row decodes to `input` of its own rd. -/
theorem decode_of_mask_input {w : Word} (h : w &&& 0xFFFFF07F = 0x0000000C) :
    decode w = .instr (.input (fieldRd w)) := by
  obtain ⟨hop, hup⟩ := fields_of_maskIo h
  exact (decode_of_opcode_input hop).trans (if_pos hup)

/-- The word of a well-formed instruction, however it is written, decodes to it. -/
theorem decode_of_encode_eq {w : Word} {i : Instr} (hw : encode i = w) (hi : WellFormed i) :
    decode w = .instr i := by
  rw [← hw, decode_encode hi]

end Sys2Proof

namespace Sys2Proof.Machine

/-! ### Completing an `input` (R252) -/

section CompleteInput
variable {s : State} (rd : Reg) {v : Word} {rest : List Word}

theorem exec_input_of_supplied (hs : s.inputs = v :: rest) :
    exec (.input rd) s = .next (completeInput rd v rest s) := by
  simp [exec, execInput, hs]

/-- A completed `input` writes its register, advances, appends the prompt and leaves `rest` on the channel; nothing
else changes. -/
theorem completeInput_frame (v : Word) (rest : List Word) (s : State) :
    (completeInput rd v rest s).getReg rd = v ∧ SameRegsExcept rd s (completeInput rd v rest s) ∧
      (completeInput rd v rest s).pc = s.pc + 4 ∧
      (completeInput rd v rest s).output = s.output ++ [.inputPrompt rd] ∧
      (completeInput rd v rest s).inputs = rest ∧ SameMemory s (completeInput rd v rest s) ∧
      SameControl s (completeInput rd v rest s) := by
  refine ⟨?same, fun r hr => ?other, rfl, rfl, rfl, fun _ => rfl, ⟨rfl, rfl, rfl⟩⟩
  case same => rw [getReg_completeInput, if_pos rfl]
  case other => rw [getReg_completeInput, if_neg hr]

end CompleteInput

/-! ### What a step does to the output stream, the input channel and EXT_BRANCH (R253, R8) -/

section StepIo
variable {i : Instr} {s t : State}

/-- A meaning leaves the output as it is, or appends the one record of its `print` or `input`. -/
theorem exec_output (h : exec i s = .next t) : t.output = s.output ∨
    (∃ rd, i = .print rd ∧ t.output = s.output ++ [.print rd (s.getReg rd)]) ∨
    ∃ rd, i = .input rd ∧ t.output = s.output ++ [.inputPrompt rd] := by
  cases exec_shape h with
  | prints rd hi => exact .inr (.inl ⟨rd, hi, rfl⟩)
  | takes rd v rest hi hs => exact .inr (.inr ⟨rd, hi, rfl⟩)
  | _ => exact .inl rfl

/-- A meaning leaves the channel as it is, or is an `input` that takes its first value. -/
theorem exec_inputs (h : exec i s = .next t) :
    t.inputs = s.inputs ∨ ∃ rd v, i = .input rd ∧ s.inputs = v :: t.inputs := by
  cases exec_shape h with
  | takes rd v rest hi hs => exact .inr ⟨rd, v, hi, hs⟩
  | _ => exact .inl rfl

theorem exec_extBranch (h : exec i s = .next t) : t.extBranch = s.extBranch := by
  cases exec_shape h <;> rfl

/-- A step that runs no instruction leaves the output, the channel and EXT_BRANCH as they are. -/
theorem step_sameIo_or_exec (h : step s = .next t) : (SameIo s t ∧ t.extBranch = s.extBranch) ∨
    ∃ w i, fetch s = some w ∧ decode w = .instr i ∧ exec i s = .next t := by
  obtain ⟨-, rfl⟩ | ⟨-, -, rfl⟩ | ⟨-, w, k, -, -, rfl⟩ | ⟨-, hexec⟩ := step_cases h
  · exact .inl ⟨⟨rfl, rfl⟩, rfl⟩
  · exact .inl ⟨⟨rfl, rfl⟩, rfl⟩
  · exact .inl ⟨⟨rfl, rfl⟩, rfl⟩
  · exact .inr hexec

end StepIo

/-! ### The obligations on HALTED, on `input`, and on what every step answers and keeps -/

/-- Settles O8: a step in HALTED answers the same state, so a run does. -/
theorem haltedIsFinal : Obligations.HaltedIsFinal := by
  unfold Obligations.HaltedIsFinal
  intro s hr k
  exact Laws.run_of_fixed Sys2Proof.core (step_of_not_running hr) k

/-- Settles O34: the step at the hold is a fixed point of a run, and the step after a supply is the completion with
that value. -/
theorem heldInputWaitsThenCompletes : Obligations.HeldInputWaitsThenCompletes := by
  unfold Obligations.HeldInputWaitsThenCompletes
  intro s hheld
  refine ⟨Laws.run_of_fixed Sys2Proof.core (step_of_inputHeld hheld), fun v => ?_⟩
  obtain ⟨w, rd, hf, hd, hstep⟩ := step_supply hheld v
  have hsupply : supplyInput v ⟨s, .started⟩ = some ⟨s.supply v, .started⟩ :=
    supplyInput_eq_some.2 ⟨⟨rfl, hheld⟩, rfl⟩
  obtain ⟨hrd, hothers, hpc, hout, hin, hmem, -⟩ := completeInput_frame rd v [] (s.supply v)
  exact ⟨w, rd, _, _, hf, hd, hsupply, hstep, hrd, hothers, hpc, hout, hin, hmem⟩

/-- Settles O35: a step that runs no instruction appends nothing, and a meaning at most the record of `print` or
`input`. -/
theorem outputOnlyAppended : Obligations.OutputOnlyAppended := by
  unfold Obligations.OutputOnlyAppended
  intro s t h
  obtain ⟨⟨hout, -⟩, -⟩ | ⟨w, i, hf, hd, hx⟩ := step_sameIo_or_exec h
  · exact .inl hout
  · obtain hout | ⟨rd, rfl, hout⟩ | ⟨rd, rfl, hout⟩ := exec_output hx
    · exact .inl hout
    · exact .inr (.inl ⟨w, rd, hf, hd, hout⟩)
    · exact .inr (.inr ⟨w, rd, hf, hd, hout⟩)

/-- Settles O38: every meaning has an answer, and so has every other way a step can go; in HALTED and at a hold it is
the state itself. -/
theorem everyStepAnswersNextState : Obligations.EveryStepAnswersNextState := by
  unfold Obligations.EveryStepAnswersNextState
  intro s
  exact ⟨exists_step_eq_next s, fun h => h.elim step_of_not_running step_of_inputHeld⟩

/-- Settles O43: no meaning writes EXT_BRANCH, and `input` alone takes a value. -/
theorem parameterAndChannelFrame : Obligations.ParameterAndChannelFrame := by
  unfold Obligations.ParameterAndChannelFrame
  intro s t h
  obtain ⟨⟨-, hin⟩, hext⟩ | ⟨w, i, hf, hd, hx⟩ := step_sameIo_or_exec h
  · exact ⟨hext, .inl hin⟩
  · refine ⟨exec_extBranch hx, ?_⟩
    obtain hin | ⟨rd, v, rfl, hin⟩ := exec_inputs hx
    · exact .inl hin
    · exact .inr ⟨w, rd, v, hf, hd, hin⟩

/-- Settles O9: each word is the encoding of its instruction, which is well formed. -/
theorem sampleWordsDecode : Obligations.SampleWordsDecode := by
  unfold Obligations.SampleWordsDecode
  and_intros
  all_goals exact decode_of_encode_eq rfl rfl

/-- Settles O33: the row's mask gives the decoder row, and with a value on the channel the meaning is the completion. -/
theorem inputTakesSuppliedValue : Obligations.InputTakesSuppliedValue := by
  unfold Obligations.InputTakesSuppliedValue
  refine ⟨fun w h => decode_of_mask_input h, fun rd v rest s hs => ?_⟩
  exact ⟨_, exec_input_of_supplied rd hs, completeInput_frame rd v rest s⟩

/-- Settles O40: the reset machine runs, with canonical memory and a zero halt record. -/
theorem resetMeetsInvariant : Obligations.ResetMeetsInvariant := by
  unfold Obligations.ResetMeetsInvariant
  exact inv_of_running wf_reset rfl rfl

end Sys2Proof.Machine
